-- ==== Sys2Proof/Word.lean ====
section
/-! DEFINITION. The word types of HAMCORE: bit lists for the vectors the spec indexes by position (`c[1..M]`, `d[1..N]`,
`r[0..K-1]`, R9) and the host's byte. Ports are `BitVec`s of the elaborated widths (Machine/State.lean). -/

namespace Sys2Proof

/-- A vector of bits as the spec lists it (R9): `c[1..M]` and `d[1..N]` with position 1 first, `r[0..K-1]` with `r[0]`
first. -/
abbrev Bits := List Bool

/-- An 8-bit byte of the host's framing (R44, R52). -/
abbrev Byte := BitVec 8

end Sys2Proof
end

