-- ==== Sys2Proof/Config.lean ====
section
/-! DEFINITION. The implementation parameters of one HAMCORE instance (R5, R7, R8) and the model's free values. -/

namespace Sys2Proof

/-- The two parameters fixed when an instance is elaborated (R8: there are no others). `K`, `M` and the tables `P`, `Q`, `H`
are computed from `N` (R6) and are no parameters. -/
structure Params where
  /-- `N`, data bits per block (R5): an integer, at least 1 (`Params.wf`). -/
  N : Nat
  /-- `LATENCY`, clock cycles from accepting a command to presenting its response (R7): OPEN, any natural number. -/
  latency : Nat
deriving DecidableEq, Repr

/-- The bound R5 sets on `N`; R7 sets none on `LATENCY` beyond being a natural number. -/
abbrev Params.wf (p : Params) : Prop := 1 ≤ p.N

namespace Config

/-- The instance whose state after reset is `State.reset`: `N = 8` is the spec's default (R5). `LATENCY` is OPEN (R7);
the value here is a DESIGN CHOICE (notes/assumptions/1.md) and no statement rests on it. -/
def defaultParams : Params := { N := 8, latency := 0 }

/-! Free values (notes/assumptions/2.md). Each is applied to the number of the cycle and to a place: 0 is the response
outputs, `s` is pipeline stage `s`. They have no body: nothing can be proved about the value drawn (R29, R203; entries U7, U8
of 93_implementation_defined.md). -/

/-- An unspecified `rsp_op` (R29). -/
opaque freeOp (cycle place : Nat) : Bool

/-- An unspecified codeword of `w` bits (R29). -/
opaque freeCode (w cycle place : Nat) : BitVec w

/-- An unspecified data word of `w` bits (R29). -/
opaque freeData (w cycle place : Nat) : BitVec w

/-- An unspecified `rsp_status`, any of its four codes (R29). -/
opaque freeStatus (cycle place : Nat) : BitVec 2

/-- An unspecified syndrome of `w` bits (R29). -/
opaque freeSyndrome (w cycle place : Nat) : BitVec w

end Config

end Sys2Proof
end

