-- ==== Sys2Proof/Machine/BitOps.lean ====
section
/-! DEFINITION. The primitives of R11 on bit lists, the XOR reduction of R10, and the three bit orders of R41 to R43 that tie
a bit list to the value of a port. -/

namespace Sys2Proof

/-- `bit(j, i)` (R11): bit `i` of the number `j`. -/
def bit (j i : Nat) : Bool := j.testBit i

/-- `bitlen(j)` (R11): the number of binary digits of `j ≥ 1`; 0 for `j = 0`, which the spec never asks for. -/
def bitlen (j : Nat) : Nat := if j = 0 then 0 else Nat.log2 j + 1

/-- `L[p]` at the 1-indexed position `p` (R9). -/
def bitAt (L : Bits) : Nat → Bool
  | 0 => false
  | p + 1 => L.getD p false

/-- `L[p] <- b` at the 1-indexed position `p`. -/
def setAt (L : Bits) (b : Bool) : Nat → Bits
  | 0 => L
  | p + 1 => L.set p b

/-- `L[p] <- not L[p]` (R11, R142(ii)). -/
def flipAt (L : Bits) (p : Nat) : Bits := setAt L (!bitAt L p) p

/-- `insert(L, p, b)` (R11): `b` at the 1-indexed position `p`, the elements at `p` and above moved up by one. -/
def insertAt (L : Bits) (p : Nat) (b : Bool) : Bits := L.take (p - 1) ++ b :: L.drop (p - 1)

/-- `remove(L, p)` (R11): the element at the 1-indexed position `p` deleted, the later ones moved down by one. -/
def removeAt (L : Bits) (p : Nat) : Bits := L.take (p - 1) ++ L.drop p

/-- The XOR of a list of bits, 0 for none (R10). -/
def xorAll (L : Bits) : Bool := L.foldr Bool.xor false

/-- The bitwise XOR of a list of numbers, 0 for none (R10). -/
def xorNat (L : List Nat) : Nat := L.foldr (· ^^^ ·) 0

/-- The positions, counted from 1, at which a bit list holds a 1. -/
def onePositions (L : Bits) : List Nat := (List.range' 1 L.length).filter (bitAt L ·)

/-- The bit list read as a binary numeral, first bit most significant (R41). -/
def msbValue (L : Bits) : Nat := L.foldl (fun v b => 2 * v + b.toNat) 0

/-- The bit list read with bit 0 first and least significant: `Σ r[i]·2^i` (R43, R107). -/
def lsbValue : Bits → Nat
  | [] => 0
  | b :: L => b.toNat + 2 * lsbValue L

/-- The vector carried by a codeword or data port of `w` bits: position `j` is port bit `w − j` (R41, R42). -/
def ofPort {w : Nat} (v : BitVec w) : Bits := (List.range' 1 w).map fun j => v.getLsbD (w - j)

/-- The value of a codeword or data port that carries the vector `L` (R41, R42): its string read as a binary numeral. -/
def toPort (w : Nat) (L : Bits) : BitVec w := BitVec.ofNat w (msbValue L)

/-- The value of the syndrome port that carries `r[0..w-1]`: `r[i]` is port bit `i` (R43). -/
def toLsbPort (w : Nat) (r : Bits) : BitVec w := BitVec.ofNat w (lsbValue r)

end Sys2Proof
end

