-- ==== Sys2Proof/Machine/Layout.lean ====
section
/-! DEFINITION. The Parity Layout Engine and the Parity-Check Matrix Builder (40_layout.md, R100 to R109): the constants `K`,
`M`, `P`, `Q` and `H` of an instance with block length `N`, and the product `H · v` over GF(2). They are functions of `N`
alone (R6, R23); no command reads or writes them, so no state holds a copy. -/

namespace Sys2Proof.Layout

/-- The least `k' ≥ k` with `2^k' ≥ N + k' + 1`, searched for at most `fuel` steps. -/
def leastCount (N : Nat) : (fuel k : Nat) → Nat
  | 0, k => k
  | fuel + 1, k => if N + k + 1 ≤ 2 ^ k then k else leastCount N fuel (k + 1)

/-- `K` (R100): the least `k ≥ 0` with `2^k ≥ N + k + 1`. The search needs at most `N + 1` steps, since `2^(N+1) ≥ 2N + 2`. -/
def K (N : Nat) : Nat := leastCount N (N + 1) 0

/-- The body of R101's loop, run at most `fuel` times. -/
def loopCount (N : Nat) : (fuel k : Nat) → Nat
  | 0, k => k
  | fuel + 1, k => if N + k + 1 ≤ 2 ^ k then k else loopCount N fuel (bitlen (N + k))

/-- `K` as the source computes it (R101): `k <- bitlen(N + k)` from 0 until `2^k ≥ N + k + 1`. Each step raises `k`, so
`N + 1` steps are enough. -/
def loopK (N : Nat) : Nat := loopCount N (N + 1) 0

/-- `M = N + K`, the codeword length (R104). -/
def M (N : Nat) : Nat := N + K N

/-- `P`, the parity positions `(2^0, …, 2^(K−1))` in ascending order (R102). -/
def P (N : Nat) : List Nat := (List.range (K N)).map (2 ^ ·)

/-- `Q`, the data positions: those of `1..M` that are no parity position, in ascending order (R103). -/
def Q (N : Nat) : List Nat := (List.range' 1 (M N)).filter fun j => !(P N).contains j

/-- `N` is full-length when every nonzero syndrome value names a position (R104(e)). -/
abbrev fullLength (N : Nat) : Prop := M N = 2 ^ K N - 1

/-- `H`, row by row: `H[i][j] = bit(j, i)` for rows `i = 0..K−1` and columns `j = 1..M` (R105). -/
def H (N : Nat) : List Bits := (List.range (K N)).map fun i => (List.range' 1 (M N)).map fun j => bit j i

/-- `r = H · v mod 2` (R107): each row's AND with `v`, XOR-reduced. -/
def mulVec (N : Nat) (v : Bits) : Bits := (H N).map fun row => xorAll (List.zipWith and row v)

end Sys2Proof.Layout
end

