-- ==== Sys2Proof/Syntax.lean ====
section
/-! DEFINITION. The commands of HAMCORE: the two rows of spec/opcode_table.json (R72; R80: there are no pseudo-instructions).
-/

namespace Sys2Proof

/-- A command, its fields as the numbers its bit fields spell (R71). How many bits a field has depends on the instance's `N`;
`Instr.wellFormed` says when the numbers fit. -/
inductive Instr where
  /-- ENCODE (R120): `x` is the ignored field `CMD[M-1:N]` (R73), `d` the data field `CMD[N-1:0]`. -/
  | encode (x d : Nat)
  /-- DECODE (R140): `c` is the codeword field `CMD[M-1:0]` (R74). -/
  | decode (c : Nat)
deriving DecidableEq, Repr

end Sys2Proof
end

