-- ==== Sys2Proof/WellFormed.lean ====
section
/-! DEFINITION. When a command's fields fit the field widths of an instance with block length `N` (R71, R79). -/

namespace Sys2Proof

open Layout

/-- ENCODE: `x` has `K` bits and `d` has `N`. DECODE: `c` has `M` bits (R71). Every value that fits is legal (R77). -/
def Instr.wellFormed (N : Nat) : Instr → Bool
  | .encode x d => decide (x < 2 ^ K N) && decide (d < 2 ^ N)
  | .decode c => decide (c < 2 ^ M N)

end Sys2Proof
end

