-- ==== Sys2Proof/Decode.lean ====
section
/-! DEFINITION. Decoding a command word `CMD[M:0]` into a command, and encoding a command into its word (R71 to R74, R77,
R78, R81). -/

namespace Sys2Proof

open Layout

/-- Why a number is not read as a command. -/
inductive DecodeError where
  /-- It needs more than the `M + 1` bits that every command has (R45, R71, R78). No word of `M + 1` bits is refused (R77). -/
  | widerThanCommand
deriving DecidableEq, Repr

/-- The command that the ports `cmd_op` and `cmd_word` present (R72 to R74): every pair is legal (R77). -/
def decodePorts (N : Nat) (op : Bool) (word : BitVec (M N)) : Instr :=
  if op then .decode word.toNat else .encode (word.toNat / 2 ^ N) (word.toNat % 2 ^ N)

/-- `cmd_op`, bit `M` of the command word (R71). -/
def opOf (N cmd : Nat) : Bool := cmd.testBit (M N)

/-- `cmd_word`, bits `M−1..0` of the command word (R71). -/
def wordOf (N cmd : Nat) : BitVec (M N) := BitVec.ofNat (M N) cmd

/-- The command a number spells: refused by name when it has more than `M + 1` bits. -/
def decode (N cmd : Nat) : Except DecodeError Instr :=
  if cmd < 2 ^ (M N + 1) then .ok (decodePorts N (opOf N cmd) (wordOf N cmd)) else .error .widerThanCommand

/-- The command word of a command, written from the field table of R71: `op` in bit `M`; ENCODE's `x` above `d`; DECODE's
`c` in the low `M` bits. -/
def encode (N : Nat) : Instr → Nat
  | .encode x d => 0 * 2 ^ M N + x * 2 ^ N + d
  | .decode c => 1 * 2 ^ M N + c

/-- One row of the opcode table: a word belongs to the row when its bits under `mask` are `pattern` (R81). -/
structure OpcodeRow where
  /-- The row's name in the opcode table. -/
  mnemonic : String
  /-- The bits of the word under the mask. -/
  pattern : Nat
  /-- The bits the row fixes. -/
  mask : Nat
deriving DecidableEq, Repr

/-- The opcode table for general `N` (R81): ENCODE has match 0, DECODE match `2^M`, each under mask `2^M`. -/
def opcodeTable (N : Nat) : List OpcodeRow :=
  [{ mnemonic := "ENCODE", pattern := 0, mask := 2 ^ M N }, { mnemonic := "DECODE", pattern := 2 ^ M N, mask := 2 ^ M N }]

/-- The name of a command's row in the opcode table. -/
def Instr.mnemonic : Instr → String
  | .encode _ _ => "ENCODE"
  | .decode _ => "DECODE"

/-- The command the decoder reads from the word `w` of the opcode table, whose rows are those of the default `N = 8` (R81).
HAMCORE stores no command in memory (R50), so there is no byte layout to undo: the word goes to the command port as it is. -/
def decodeTableWord (nbits w : Nat) : Option Instr :=
  match decode Config.defaultParams.N (w % 2 ^ nbits) with
  | .ok i => some i
  | .error _ => none

end Sys2Proof
end

