-- ==== Sys2Proof/Machine/State.lean ====
section
/-! DEFINITION. The state of one HAMCORE instance (R29) with the ports of R70, as plain data, and the state after reset. There
are no registers, no program counter, no flags, no control registers and no memory to hold (R20 to R22, R24 to R26, R40). -/

namespace Sys2Proof.Machine

open Layout

/-- The response fields (R75), each as wide as its port (R70). -/
structure Response (N : Nat) where
  /-- `rsp_op`: 0 ENCODE, 1 DECODE. -/
  op : Bool
  /-- `rsp_code[M-1:0]`, a codeword in the bit order of R41. -/
  code : BitVec (M N)
  /-- `rsp_data[N-1:0]`, a data word in the bit order of R42. -/
  data : BitVec N
  /-- `rsp_status[1:0]`, a code of R76. -/
  status : BitVec 2
  /-- `rsp_syndrome[K-1:0]`, the syndrome value (R43). -/
  syndrome : BitVec (K N)
deriving DecidableEq, Repr

/-- A valid bit with response fields: one pipeline stage (R27), or the response port (`rsp_valid` and its fields, R70). While
`valid` is 0 the fields mean nothing. -/
structure Slot (N : Nat) where
  /-- The valid bit. -/
  valid : Bool
  /-- The fields it covers. -/
  rsp : Response N
deriving DecidableEq, Repr

/-- What the host drives on the input ports during one cycle (R70). `clk` is not here: one step is one cycle, which ends at
its rising edge (R202). -/
structure Inputs (N : Nat) where
  /-- `rst`, synchronous reset, active high (R200). -/
  rst : Bool
  /-- `cmd_valid`. -/
  cmdValid : Bool
  /-- `cmd_op`. -/
  cmdOp : Bool
  /-- `cmd_word[M-1:0]`. -/
  cmdWord : BitVec (M N)
deriving DecidableEq, Repr

/-- The changing state of an instance with block length `N`. -/
structure Block (N : Nat) where
  /-- The pipeline stages 1, 2, …, `LATENCY` in that order (R27): the head took the last accepted command, the last one is
  presented next. -/
  pipe : List (Slot N)
  /-- The response port during the last cycle that ran. It is an output: nothing reads it back (R206). -/
  out : Slot N
  /-- The model's own: what the host will drive in the coming cycles, the next one first (notes/assumptions/3.md). -/
  stimulus : List (Inputs N)
  /-- The model's own: how many cycles have run; it only names the free values (notes/assumptions/2.md). -/
  cycleNo : Nat
deriving DecidableEq, Repr

/-- One HAMCORE instance. The elaboration constants `N` and `LATENCY` are held so that one model covers every instance; `K`,
`M`, `P`, `Q` and `H` are their functions (Machine/Layout.lean). -/
structure State where
  params : Params
  block : Block params.N
deriving DecidableEq, Repr

/-- HAMCORE has no fault, error or exception output, and no command can fail (R170): no step can answer a fault. Nobody
raises one, so the type has no constructor; this is neither safe nor unsafe, it is what the spec says. -/
inductive Fault where
deriving DecidableEq, Repr

/-- Why the model has no meaning for a command. -/
inductive Refusal where
  /-- Raised only by an arm of `exec` for a command that has no meaning yet; both commands have one, so no step answers it.
  Safe: a refused command proves nothing about the hardware. -/
  | notModelled (mnemonic : String)
deriving DecidableEq, Repr

/-- Response fields that are all 0: what the state after reset shows where R29 says 'unspecified (any value)'. DESIGN CHOICE
(notes/assumptions/4.md); no statement rests on it. -/
def Response.zero (N : Nat) : Response N := { op := false, code := 0, data := 0, status := 0, syndrome := 0 }

/-- A slot that holds no response, its fields 0 (notes/assumptions/4.md). -/
def Slot.empty (N : Nat) : Slot N := { valid := false, rsp := Response.zero N }

/-- The state of the instance elaborated with `p`, right after reset (R29, R201): every valid bit 0, `rsp_valid` 0. -/
def State.elaborate (p : Params) : State :=
  { params := p
    block := { pipe := List.replicate p.latency (Slot.empty p.N), out := Slot.empty p.N, stimulus := [], cycleNo := 0 } }

/-- The default instance right after reset. -/
def State.reset : State := State.elaborate Config.defaultParams

end Sys2Proof.Machine
end

