-- ==== Sys2Proof/Machine/Flags.lean ====
section
/-! DEFINITION. The per-block status (R76) and the ordered cases that choose it from the syndrome value (R142). HAMCORE holds
no flag (R24): the status lives in the response only. -/

namespace Sys2Proof.Machine

open Layout

/-- The three per-block statuses (R76). -/
inductive Status where
  | clean
  | corrected
  | uncorrectable
deriving DecidableEq, Repr

/-- The code a status has on `rsp_status` (R76); the code 11 is reserved and is nobody's. -/
def Status.code : Status → BitVec 2
  | .clean => 0b00#2
  | .corrected => 0b01#2
  | .uncorrectable => 0b10#2

/-- The status of the syndrome value `s`, the cases in the order of R142: `s = 0`, then `0 < s < M`, then `s ≥ M` with
`s = M` among them. -/
def classify (N s : Nat) : Status :=
  if s = 0 then .clean else if s < M N then .corrected else .uncorrectable

end Sys2Proof.Machine
end

