-- ==== Sys2Proof/Machine/Operands.lean ====
section
/-! DEFINITION. The operand vectors of the two commands (R73, R74). There is one operand form for each; nothing is extended,
scaled or shifted. -/

namespace Sys2Proof.Machine

open Layout

/-- ENCODE's data word `D = cmd_word[N-1:0]` (R73): the field's `N` bits. -/
def dataOperand (N d : Nat) : BitVec N := BitVec.ofNat N d

/-- DECODE's codeword `cmd_word[M-1:0]` (R74): the field's `M` bits. -/
def codeOperand (N c : Nat) : BitVec (M N) := BitVec.ofNat (M N) c

/-- `d[1..N]` with `d[i] = cmd_word[N−i]` (R73). -/
def dataBits {N : Nat} (D : BitVec N) : Bits := ofPort D

/-- `c[1..M]` with `c[j] = cmd_word[M−j]` (R74). -/
def codeBits {N : Nat} (C : BitVec (M N)) : Bits := ofPort C

end Sys2Proof.Machine
end

