-- ==== Sys2Proof/Machine/Ops.lean ====
section
/-! DEFINITION. The shared operations: the steps of the two block computations on bit lists, and what a clock cycle does to
the pipeline and the ports. HAMCORE has no exceptions and no trap entry or return (R170, R174), so there is no operation that
takes or leaves one; it has no registers and no memory, so there is none that reads or writes them. -/

namespace Sys2Proof.Machine

open Layout

/-! The block computations. -/

/-- The placeholders of R121: a 0 inserted at each parity position, in ascending order. -/
def insertPlaceholders (N : Nat) (d : Bits) : Bits :=
  (List.range (K N)).foldl (fun c i => insertAt c (2 ^ i) false) d

/-- The overwrites of R122: `c[2^i] <- r[i]` for each parity position in ascending order. -/
def overwriteParity (N : Nat) (r c : Bits) : Bits :=
  (List.range (K N)).foldl (fun c i => setAt c (r.getD i false) (2 ^ i)) c

/-- ENCODE's codeword (R120): placeholders, one product `r = H · c`, then the overwrites. -/
def encodeBits (N : Nat) (d : Bits) : Bits :=
  overwriteParity N (mulVec N (insertPlaceholders N d)) (insertPlaceholders N d)

/-- The syndrome value `s` of a received word (R141). -/
def syndromeValue (N : Nat) (c : Bits) : Nat := lsbValue (mulVec N c)

/-- The codeword after the correction step, `c′` (R142): position `s` inverted when the status is CORRECTED, else `c`. -/
def correctBits (N : Nat) (c : Bits) : Bits :=
  match classify N (syndromeValue N c) with
  | .clean => c
  | .corrected => flipAt c (syndromeValue N c)
  | .uncorrectable => c

/-- The stripping of R143: the bit at each parity position removed, in descending order. -/
def stripParity (N : Nat) (c : Bits) : Bits :=
  (List.range (K N)).reverse.foldl (fun e i => removeAt e (2 ^ i)) c

/-! One clock cycle (R202, R203). -/

/-- Response fields nothing is known about, at a place (0 the response port, `s` stage `s`) in a cycle: free values (R29). -/
def Response.free (N cycle place : Nat) : Response N :=
  { op := Config.freeOp cycle place
    code := Config.freeCode (M N) cycle place
    data := Config.freeData N cycle place
    status := Config.freeStatus cycle place
    syndrome := Config.freeSyndrome (K N) cycle place }

/-- A slot without a response: valid bit 0, any fields (R29). -/
def Slot.bubble (N cycle place : Nat) : Slot N := { valid := false, rsp := Response.free N cycle place }

/-- What the response port shows when `x` is the slot to present: a response as it is; where there is none, `rsp_valid` is 0
and the other outputs hold any value (R203). -/
def Slot.present {N : Nat} (cycle : Nat) (x : Slot N) : Slot N := if x.valid then x else Slot.bubble N cycle 0

/-- A cycle with `rst` = 0 (R202, R203). `entering` is the response to the command accepted in this cycle, or a bubble. The
last stage is presented, or `entering` itself where there are no stages (`LATENCY` = 0); at the edge every stage moves on by
one and `entering` becomes stage 1. -/
def Block.clock {N : Nat} (entering : Slot N) (b : Block N) : Block N :=
  { b with
    pipe := (entering :: b.pipe).dropLast
    out := (b.pipe.getLastD entering).present b.cycleNo
    cycleNo := b.cycleNo + 1 }

/-- A cycle with `rst` = 1 (R201, R203): nothing is accepted; the last stage is still presented in this cycle; at the edge
every valid bit becomes 0 and the stages' data any value. -/
def Block.resetCycle {N : Nat} (b : Block N) : Block N :=
  { b with
    pipe := (List.range b.pipe.length).map fun s => Slot.bubble N b.cycleNo (s + 1)
    out := (b.pipe.getLastD (Slot.bubble N b.cycleNo 0)).present b.cycleNo
    cycleNo := b.cycleNo + 1 }

/-- The cycle in which a command with response `r` is accepted (R203). -/
def State.accept (s : State) (r : Response s.params.N) : State :=
  { s with block := s.block.clock { valid := true, rsp := r } }

/-- A cycle in which `rst` = 0 and no command is presented (R202). -/
def State.idleCycle (s : State) : State :=
  { s with block := s.block.clock (Slot.bubble s.params.N s.block.cycleNo 1) }

/-- A cycle in which `rst` = 1 (R201). -/
def State.resetCycle (s : State) : State := { s with block := s.block.resetCycle }

/-! The input ports. -/

/-- The input ports of a cycle in which the host drives nothing: `rst` = 0 and `cmd_valid` = 0 (notes/assumptions/3.md). -/
def Inputs.quiet (N : Nat) : Inputs N := { rst := false, cmdValid := false, cmdOp := false, cmdWord := 0 }

/-- The input ports of a cycle that presents the command word `cmd` (R71). -/
def Inputs.present (N : Nat) (op : Bool) (word : BitVec (M N)) : Inputs N :=
  { rst := false, cmdValid := true, cmdOp := op, cmdWord := word }

/-- What the host drives in the coming cycle. -/
def Block.inputs {N : Nat} (b : Block N) : Inputs N := b.stimulus.headD (Inputs.quiet N)

/-- The state once the coming cycle's inputs have been taken. -/
def State.takeInputs (s : State) : State :=
  { s with block := { s.block with stimulus := s.block.stimulus.tail } }

/-- The state in which the host drives `i` in the coming cycle, and what it was to drive later unchanged. -/
def State.drive (s : State) (i : Inputs s.params.N) : State :=
  { s with block := { s.block with stimulus := i :: s.block.stimulus.tail } }

end Sys2Proof.Machine
end

