-- ==== Sys2Proof/Machine/Codec.lean ====
section
/-! DEFINITION. The meanings of ENCODE (41_encode.md) and DECODE (42_decode.md), and the response function `F` of R71. -/

namespace Sys2Proof.Machine

open Layout

/-- ENCODE's response to the data word `D` (R120, R124). -/
def encodeResponse (N : Nat) (D : BitVec N) : Response N :=
  { op := false
    code := toPort (M N) (encodeBits N (dataBits D))
    data := D
    status := Status.clean.code
    syndrome := 0 }

/-- DECODE's response to the word `C` (R140, R144): the word after the correction step, its data bits, the status and the
syndrome value. -/
def decodeResponse (N : Nat) (C : BitVec (M N)) : Response N :=
  { op := true
    code := toPort (M N) (correctBits N (codeBits C))
    data := toPort N (stripParity N (correctBits N (codeBits C)))
    status := (classify N (syndromeValue N (codeBits C))).code
    syndrome := toLsbPort (K N) (mulVec N (codeBits C)) }

/-- ENCODE (R120). The field `x` is ignored (R73). -/
def execEncode (_x d : Nat) (s : State) : Host.Outcome State Fault Refusal :=
  .next (s.accept (encodeResponse s.params.N (dataOperand s.params.N d)))

/-- DECODE (R140). -/
def execDecode (c : Nat) (s : State) : Host.Outcome State Fault Refusal :=
  .next (s.accept (decodeResponse s.params.N (codeOperand s.params.N c)))

/-- The response to a command in an instance with block length `N`. -/
def respond (N : Nat) : Instr → Response N
  | .encode _ d => encodeResponse N (dataOperand N d)
  | .decode c => decodeResponse N (codeOperand N c)

/-- `F(cmd_op, cmd_word)` (R71): a total function of the command and of `N`. -/
def F (N : Nat) (op : Bool) (word : BitVec (M N)) : Response N := respond N (decodePorts N op word)

end Sys2Proof.Machine
end

