-- ==== Sys2Proof/Machine/Dispatch.lean ====
section
/-! DEFINITION. One arm per command of HAMCORE (R72). -/

namespace Sys2Proof.Machine

/-- What a command does in the cycle in which it is accepted. -/
def exec (i : Instr) (s : State) : Host.Outcome State Fault Refusal :=
  match i with
  | .encode x d => Sys2Proof.Machine.execEncode x d s
  | .decode c => Sys2Proof.Machine.execDecode c s

end Sys2Proof.Machine
end

