-- ==== Sys2Proof/Machine/Step.lean ====
section
/-! DEFINITION. One step is one clock cycle (R202). -/

namespace Sys2Proof.Machine

/-- One cycle, ending at its rising edge (R202): with `rst` = 1 the pipeline is cleared and nothing is accepted; with `rst` = 0
and `cmd_valid` = 1 the presented command is accepted and executed; else nothing is accepted. -/
def step (s : State) : Host.Outcome State Fault Refusal :=
  if s.block.inputs.rst then .next s.takeInputs.resetCycle
  else if s.block.inputs.cmdValid then
    exec (decodePorts s.params.N s.block.inputs.cmdOp s.block.inputs.cmdWord) s.takeInputs
  else .next s.takeInputs.idleCycle

/-- `s` with the command word `w` on the command port in the coming cycle (`cmd_valid` = 1, `rst` = 0): the block fetches no
instructions (R50), the host presents them (notes/assumptions/5.md). The port carries the low `M + 1` bits of `w`. -/
def State.withFetchWord (s : State) (nbits w : Nat) : State :=
  s.drive (Inputs.present s.params.N (opOf s.params.N (w % 2 ^ nbits)) (wordOf s.params.N (w % 2 ^ nbits)))

end Sys2Proof.Machine
end

