-- ==== Sys2Proof/Machine/Assembler.lean ====
section
/-! DEFINITION. The textual command syntax of R79: one command a line, upper-case mnemonics, `;` comments, binary or
hexadecimal operands. There are no pseudo-instructions (R80). -/

namespace Sys2Proof.Machine

open Layout

/-- Why the assembler refuses a line (R79). -/
inductive AsmError where
  /-- The first word is neither ENCODE nor DECODE, or the line does not hold exactly one operand. -/
  | notACommand
  /-- The operand is neither a binary string of the operand's exact length nor a hexadecimal number that fits. -/
  | badOperand
deriving DecidableEq, Repr

/-- A character that separates words; the spec does not list them (DESIGN CHOICE, notes/assumptions/8.md). -/
def isBlank (x : Char) : Bool := x == ' ' || x == '\t' || x == '\r'

/-- The words of a line: the maximal runs of characters that are not blanks. -/
def wordsOf : List Char → List (List Char)
  | [] => []
  | x :: L =>
    if isBlank x then wordsOf L
    else match L with
      | [] => [[x]]
      | y :: _ =>
        if isBlank y then [x] :: wordsOf L
        else match wordsOf L with
          | [] => [[x]]
          | w :: ws => (x :: w) :: ws

/-- The line without its comment (R79). -/
def stripComment (line : List Char) : List Char := line.takeWhile (· ≠ ';')

/-- The value of a hexadecimal digit; both cases are read (notes/assumptions/8.md). -/
def hexDigit (x : Char) : Option Nat :=
  if '0' ≤ x ∧ x ≤ '9' then some (x.toNat - '0'.toNat)
  else if 'A' ≤ x ∧ x ≤ 'F' then some (x.toNat - 'A'.toNat + 10)
  else if 'a' ≤ x ∧ x ≤ 'f' then some (x.toNat - 'a'.toNat + 10)
  else none

/-- A number from its hexadecimal digits, first digit most significant; `none` on any other character. -/
def hexValue (L : List Char) : Option Nat :=
  L.foldl (fun v x => match v, hexDigit x with
    | some n, some d => some (16 * n + d)
    | _, _ => none) (some 0)

/-- A binary operand: exactly `w` characters '0' or '1', first bit most significant (R79). -/
def binaryOperand (w : Nat) (L : List Char) : Option Nat :=
  if L.length = w ∧ L.all (fun x => x == '0' || x == '1') then some (msbValue (L.map (· == '1'))) else none

/-- An operand of `w` bits: `0x` and a hexadecimal number less than `2^w`, or a binary operand (R79). -/
def operandValue (w : Nat) (L : List Char) : Option Nat :=
  match L with
  | '0' :: 'x' :: h :: hs =>
    match hexValue (h :: hs) with
    | some v => if v < 2 ^ w then some v else none
    | none => none
  | L => binaryOperand w L

/-- The mnemonics' letters. -/
def encodeName : List Char := ['E', 'N', 'C', 'O', 'D', 'E']

/-- The mnemonics' letters. -/
def decodeName : List Char := ['D', 'E', 'C', 'O', 'D', 'E']

/-- One line (R79): a command, no command (a blank or comment line), or a refusal. ENCODE's ignored bits are 0. -/
def assembleLine (N : Nat) (line : List Char) : Except AsmError (Option Instr) :=
  match wordsOf (stripComment line) with
  | [] => .ok none
  | [name, operand] =>
    if name = encodeName then
      match operandValue N operand with
      | some d => .ok (some (.encode 0 d))
      | none => .error .badOperand
    else if name = decodeName then
      match operandValue (M N) operand with
      | some c => .ok (some (.decode c))
      | none => .error .badOperand
    else .error .notACommand
  | _ => .error .notACommand

/-- The commands of a program's lines, in order; the first refusal ends it. -/
def assemble (N : Nat) : List (List Char) → Except AsmError (List Instr)
  | [] => .ok []
  | line :: rest =>
    match assembleLine N line, assemble N rest with
    | .error e, _ => .error e
    | .ok _, .error e => .error e
    | .ok none, .ok is => .ok is
    | .ok (some i), .ok is => .ok (i :: is)

end Sys2Proof.Machine
end

