-- ==== Sys2Proof/Machine/HostFraming.lean ====
section
/-! DEFINITION. The host around the block (20_memory.md section 5, R52 to R57): how a byte string becomes ENCODE commands and
how responses become bytes again. It is no part of the block (R4) and no step runs it; it uses the block's response function
`respond` as R52 and R53 do. -/

namespace Sys2Proof.Machine

open Layout

/-- Why the host issues no command (R54). -/
inductive HostRefusal where
  /-- An encoded string whose length is not a multiple of `M`. -/
  | notWholeCodewords
  /-- An encoded string with a character other than '0' or '1'. -/
  | notBinary
  /-- An input character wider than 8 bits. -/
  | wideCharacter
  /-- A block length that is not a positive multiple of 8, where the source gives no consistent framing. -/
  | notWholeBytes
deriving DecidableEq, Repr

/-- What the host's decoder returns (R53): the bytes, and one status and syndrome for each block. -/
abbrev HostText (N : Nat) := List Nat × List (BitVec 2 × BitVec (K N))

/-- The host-model parameter `HOST_FRAMING_NON_BYTE_N` (R54): what the host does for an `N` that is no multiple of 8, with
input that meets the other preconditions. -/
structure NonByteFraming (N : Nat) where
  encode : List Nat → Except HostRefusal (List Char)
  decode : List Char → Except HostRefusal (HostText N)

/-- The default of `HOST_FRAMING_NON_BYTE_N` (R54, entry U4): the host refuses. -/
def NonByteFraming.refuse (N : Nat) : NonByteFraming N :=
  { encode := fun _ => .error .notWholeBytes, decode := fun _ => .error .notWholeBytes }

/-- The host framing is defined for this `N` (R52). -/
abbrev wholeBytes (N : Nat) : Prop := N % 8 = 0 ∧ 0 < N

/-- The runs of `chunks`, at most `fuel` of them. -/
def chunksUpTo {α : Type} (c : Nat) : (fuel : Nat) → List α → List (List α)
  | 0, _ => []
  | _ + 1, [] => []
  | fuel + 1, x :: L => (x :: L).take c :: chunksUpTo c fuel ((x :: L).drop c)

/-- Consecutive runs of `c` elements, in order; the last one is shorter when `c` does not divide the length; no run is
empty (R52). -/
def chunks {α : Type} (c : Nat) (L : List α) : List (List α) := chunksUpTo c L.length L

/-- The 8 bits of a byte, most significant first (R44, R52). -/
def byteBits (B : Nat) : Bits := ofPort (BitVec.ofNat 8 B)

/-- A group's bits, left-padded with zeros to the block length (R52). -/
def groupBits (N : Nat) (G : List Nat) : Bits :=
  List.replicate (N - (G.flatMap byteBits).length) false ++ G.flatMap byteBits

/-- The ENCODE commands the host issues for the byte string `T` (R52). -/
def encodeCommands (N : Nat) (T : List Nat) : List Instr :=
  (chunks (N / 8) T).map fun G => .encode 0 (msbValue (groupBits N G))

/-- The character of a bit (R52). -/
def bitChar (b : Bool) : Char := if b then '1' else '0'

/-- A response's codeword as characters `c[1], …, c[M]` (R52). -/
def codeText {N : Nat} (r : Response N) : List Char := (codeBits r.code).map bitChar

/-- The host's encoder (R52) with its preconditions (R54). -/
def hostEncode (N : Nat) (T : List Nat) (other : NonByteFraming N := NonByteFraming.refuse N) :
    Except HostRefusal (List Char) :=
  if T.any (256 ≤ ·) then .error .wideCharacter
  else if wholeBytes N then .ok ((encodeCommands N T).flatMap fun i => codeText (respond N i))
  else other.encode T

/-- The DECODE commands the host issues for the encoded string `E` (R53). -/
def decodeCommands (N : Nat) (E : List Char) : List Instr :=
  (chunks (M N) E).map fun run => .decode (msbValue (run.map (· == '1')))

/-- The bytes of a response's data word, first bit most significant (R53). -/
def dataBytes {N : Nat} (r : Response N) : List Nat := (chunks 8 (dataBits r.data)).map msbValue

/-- What the host makes of a list of DECODE responses (R53). -/
def collectText {N : Nat} (rs : List (Response N)) : HostText N :=
  (rs.flatMap dataBytes, rs.map fun r => (r.status, r.syndrome))

/-- The host's decoder (R53) with its preconditions (R54). A malformed string is refused for every `N`, whatever the host does
for an `N` that is no multiple of 8. -/
def hostDecode (N : Nat) (E : List Char) (other : NonByteFraming N := NonByteFraming.refuse N) :
    Except HostRefusal (HostText N) :=
  if E.length % M N ≠ 0 then .error .notWholeCodewords
  else if E.any (fun x => x ≠ '0' && x ≠ '1') then .error .notBinary
  else if wholeBytes N then .ok (collectText ((decodeCommands N E).map (respond N)))
  else other.decode E

end Sys2Proof.Machine
end

