-- ==== Sys2Proof/Safety.lean ====
section
/-! DEFINITION. The terms in which claims speak of runs: the invariants of a state, an execution, and what R48, R202, R203
and R209 say the response port shows, computed from the inputs alone, with no pipeline in sight. -/

namespace Sys2Proof.Machine

open Layout

/-- The state is that of an elaborated instance: `N ≥ 1` (R5) and there are exactly `LATENCY` pipeline stages (R27). -/
abbrev State.WF (s : State) : Prop := s.params.wf ∧ s.block.pipe.length = s.params.latency

/-- A valid slot holds the response `F` of some command (R71); an invalid one may hold anything. -/
def Slot.Genuine {N : Nat} (x : Slot N) : Prop := x.valid = true → ∃ op word, x.rsp = F N op word

/-- Every response presented, and in flight as the model's stages hold it (notes/assumptions/6.md), is the answer to a command. States that power up with stale valid bits (R204) are
the ones this leaves out. -/
def State.Genuine (s : State) : Prop := (∀ x ∈ s.block.pipe, x.Genuine) ∧ s.block.out.Genuine

/-- The pipeline is empty: every valid bit is 0 (R29, R201). -/
def Block.Drained {N : Nat} (b : Block N) : Prop := ∀ x ∈ b.pipe, x.valid = false

/-- An execution of the instance elaborated with `p`: `f t` is the block when cycle `t` begins, so `f (t + 1)` shows what the
response port presented during cycle `t`. -/
def Execution (p : Params) (f : Nat → Block p.N) : Prop := ∀ t, step ⟨p, f t⟩ = .next ⟨p, f (t + 1)⟩

/-- The response a slot shows, if its valid bit is 1. -/
def Slot.response {N : Nat} (x : Slot N) : Option (Response N) := if x.valid then some x.rsp else none

/-- The input ports in cycle `t` when the host drives `ins` in cycles 0, 1, … and nothing after. -/
def inputsAt {N : Nat} (ins : List (Inputs N)) (t : Nat) : Inputs N := ins.getD t (Inputs.quiet N)

/-- A command is accepted if and only if `cmd_valid` = 1 and `rst` = 0 (R202). -/
def Inputs.accepts {N : Nat} (i : Inputs N) : Bool := i.cmdValid && !i.rst

/-- A response to a command accepted in cycle `t` is discarded when `rst` = 1 in some cycle `u` with `t < u < t + L` (R203). -/
def discarded {N : Nat} (L : Nat) (ins : List (Inputs N)) (t : Nat) : Bool :=
  (List.range' (t + 1) (L - 1)).any fun u => (inputsAt ins u).rst

/-- The answer to the command accepted in cycle `t`; none if there is no command or a reset discards it. -/
def answerTo {N : Nat} (L : Nat) (ins : List (Inputs N)) (t : Nat) : Option (Response N) :=
  if (inputsAt ins t).accepts && !discarded L ins t then
    some (F N (inputsAt ins t).cmdOp (inputsAt ins t).cmdWord)
  else none

/-- What R203 says is presented in cycle `t` by an instance of latency `L` that starts drained. -/
def responseDue {N : Nat} (L : Nat) (ins : List (Inputs N)) (t : Nat) : Option (Response N) :=
  if L ≤ t then answerTo L ins (t - L) else none

/-- The transaction-level view (R209): `F` over the accepted commands in order, less those a reset discards. -/
def answers {N : Nat} (L : Nat) (ins : List (Inputs N)) : List (Response N) :=
  (List.range ins.length).filterMap (answerTo L ins)

/-- The responses an execution presents in its first `n` cycles, in order. -/
def presented {N : Nat} (f : Nat → Block N) (n : Nat) : List (Response N) :=
  (List.range n).filterMap fun t => (f (t + 1)).out.response

/-- A codeword with the positions of a list inverted, as a received word (R145, R146). -/
def invert (N : Nat) (C : BitVec (M N)) (E : List Nat) : BitVec (M N) := toPort (M N) (E.foldl flipAt (codeBits C))

/-- Two slots no rule may tell apart: the same valid bit, and the same fields where it is 1 (R27, R29). -/
def Slot.Alike {N : Nat} (x y : Slot N) : Prop := x.valid = y.valid ∧ (x.valid = true → x.rsp = y.rsp)

/-- Two blocks that agree in everything but the fields of invalid slots and the last outputs. -/
def Block.Alike {N : Nat} (a b : Block N) : Prop :=
  List.Forall₂ Slot.Alike a.pipe b.pipe ∧ a.stimulus = b.stimulus ∧ a.cycleNo = b.cycleNo

/-- What accepting the response `r` does to a block (R203), read from the outside: what the cycle presents, what is in flight
after it, and that nothing else changes but the model's own cycle number. -/
structure Accepts {N : Nat} (r : Response N) (b b' : Block N) : Prop where
  /-- With no pipeline stage the response is presented in the cycle of acceptance. -/
  combinational : b.pipe = [] → b'.pipe = [] ∧ b'.out = { valid := true, rsp := r }
  /-- With stages it enters stage 1, and every other stage moves on by one. That a stage holds the finished response is the
  model's choice (DESIGN CHOICE, notes/assumptions/6.md; R27 leaves it open). -/
  enters : b.pipe ≠ [] → b'.pipe = { valid := true, rsp := r } :: b.pipe.dropLast
  /-- With stages the last one is what the cycle presents. -/
  presents : ∀ x, b.pipe.getLast? = some x → b'.out.response = x.response
  /-- What the host is going to drive is not the block's to change. -/
  stimulus : b'.stimulus = b.stimulus
  /-- The model's own counter. -/
  cycleNo : b'.cycleNo = b.cycleNo + 1

end Sys2Proof.Machine
end

