-- ==== Sys2Proof/Certificates/Slice0/Obligations.lean ====
section
/-! DEFINITION. The statements about HAMCORE, in the order of the spec's files. `N` is any block length unless a hypothesis
bounds it; R5 asks for `1 ≤ N`. Each docstring names the rule. -/

open Sys2Proof Sys2Proof.Machine Sys2Proof.Layout

/-! Layout and matrix (40_layout.md). -/

/-- R100: `K` is the smallest `k ≥ 0` with `2^k ≥ N + k + 1`; for the default `N = 8` it is 4. -/
def Obligations.ParityCountIsLeast : Prop :=
  (∀ N, 1 ≤ N → N + K N + 1 ≤ 2 ^ K N ∧ ∀ k, k < K N → 2 ^ k < N + k + 1) ∧ K 8 = 4

/-- R101: the source's fixed-point loop, in exact integers, yields the `K` of R100 for every `N ≥ 1`. -/
def Obligations.SourceLoopComputesParityCount : Prop :=
  ∀ N, 1 ≤ N → loopK N = K N

/-- R102, R103: `P` is `2^0, …, 2^(K−1)`; `Q` is the `N` positions of `1..M` that are no power of two, ascending; position `j`
of `Q` is its entry number `j − bitlen(j)` and holds that data bit of the codeword; and both tuples for `N = 8`. -/
def Obligations.ParityAndDataPositions : Prop :=
  (∀ N, 1 ≤ N →
    (P N).length = K N ∧ (∀ i, i < K N → (P N)[i]? = some (2 ^ i)) ∧ (P N).Pairwise (· < ·) ∧
    (Q N).length = N ∧ (Q N).Pairwise (· < ·) ∧
    (∀ j, j ∈ Q N ↔ 1 ≤ j ∧ j ≤ M N ∧ ∀ t, j ≠ 2 ^ t) ∧
    (∀ j, j ∈ Q N → bitlen j + 1 ≤ j ∧ (Q N)[j - bitlen j - 1]? = some j) ∧
    (∀ (d : Bits) j, d.length = N → j ∈ Q N → bitAt (encodeBits N d) j = d.getD (j - bitlen j - 1) false)) ∧
  P 8 = [1, 2, 4, 8] ∧ Q 8 = [3, 5, 6, 7, 9, 10, 11, 12]

/-- R104: `M = N + K` and the facts (a) to (e): `M ≤ 2^K − 1`; every parity position lies in `1..M−1`; `M` is no power of two
and is the position of the last data bit; `K = bitlen(M)`; `M = 2^K − 1` exactly when every nonzero syndrome value names a
position, and the listed `N` are such. -/
def Obligations.CodewordLengthFacts : Prop :=
  (∀ N, 1 ≤ N →
    M N = N + K N ∧ M N ≤ 2 ^ K N - 1 ∧
    2 ^ (K N - 1) ≤ M N - 1 ∧ (∀ i, i < K N → 1 ≤ 2 ^ i ∧ 2 ^ i ≤ M N - 1) ∧
    (∀ t, M N ≠ 2 ^ t) ∧ (Q N)[N - 1]? = some (M N) ∧
    K N = bitlen (M N) ∧
    (fullLength N ↔ ∀ s, 1 ≤ s → s ≤ 2 ^ K N - 1 → s ≤ M N)) ∧
  ∀ N, N ∈ [1, 4, 11, 26, 57, 120, 247] → fullLength N

/-- R105, R106: `H` is `K × M` with `H[i][j] = bit(j, i)`; column `2^i` has its one set bit at row `i`; no column is zero and
no two are equal; and the matrix of `N = 8`. -/
def Obligations.ParityCheckMatrix : Prop :=
  (∀ N, 1 ≤ N →
    (H N).length = K N ∧ (∀ row, row ∈ H N → row.length = M N) ∧
    (∀ i j, i < K N → 1 ≤ j → j ≤ M N → bitAt ((H N).getD i []) j = bit j i) ∧
    (∀ i i', i < K N → i' < K N → (bitAt ((H N).getD i' []) (2 ^ i) = true ↔ i' = i)) ∧
    (∀ j, 1 ≤ j → j ≤ M N → ∃ i, i < K N ∧ bitAt ((H N).getD i []) j = true) ∧
    (∀ j j', 1 ≤ j → j ≤ M N → 1 ≤ j' → j' ≤ M N → j ≠ j' →
      ∃ i, i < K N ∧ bitAt ((H N).getD i []) j ≠ bitAt ((H N).getD i []) j')) ∧
  H 8 = [[true, false, true, false, true, false, true, false, true, false, true, false],
         [false, true, true, false, false, true, true, false, false, true, true, false],
         [false, false, false, true, true, true, true, false, false, false, false, true],
         [false, false, false, false, false, false, false, true, true, true, true, true]]

/-- R107: bit `i` of `H · v` is the XOR over the columns of `H[i][j] and v[j]`, and the product's value is the XOR of the
positions that hold a 1. -/
def Obligations.ProductIsXorOfPositions : Prop :=
  ∀ N (v : Bits), v.length = M N →
    (mulVec N v).length = K N ∧
    (∀ i, i < K N → (mulVec N v).getD i false = xorAll ((List.range' 1 (M N)).map fun j => bit j i && bitAt v j)) ∧
    lsbValue (mulVec N v) = ((List.range (K N)).map fun i => ((mulVec N v).getD i false).toNat * 2 ^ i).sum ∧
    lsbValue (mulVec N v) = xorNat (onePositions v)

/-- R108: `K` is non-decreasing in `N`, and the step from `N` to `N + 1` raises it by one when `N` is full-length and leaves
it otherwise. -/
def Obligations.ParityCountMonotone : Prop :=
  (∀ N N', 1 ≤ N → N ≤ N' → K N ≤ K N') ∧
  ∀ N, 1 ≤ N → (fullLength N → K (N + 1) = K N + 1) ∧ (¬ fullLength N → K (N + 1) = K N)

/-! Bit orders (20_memory.md section 2). -/

/-- R41, R42, R43: position `j` of a codeword is port bit `M − j` and position `i` of a data word is port bit `N − i`, in both
directions; the string read as a binary numeral is the port's value; `r[i]` is bit `i` of the syndrome port, whose value is
`Σ r[i]·2^i`. With the rules' examples. -/
def Obligations.PortBitOrders : Prop :=
  (∀ N (C : BitVec (M N)),
    (codeBits C).length = M N ∧ (∀ j, 1 ≤ j → j ≤ M N → bitAt (codeBits C) j = C.getLsbD (M N - j)) ∧
    msbValue (codeBits C) = C.toNat ∧ toPort (M N) (codeBits C) = C) ∧
  (∀ N (D : BitVec N),
    (dataBits D).length = N ∧ (∀ i, 1 ≤ i → i ≤ N → bitAt (dataBits D) i = D.getLsbD (N - i)) ∧
    msbValue (dataBits D) = D.toNat ∧ toPort N (dataBits D) = D) ∧
  (∀ w (L : Bits), L.length = w → ∀ j, 1 ≤ j → j ≤ w → (toPort w L).getLsbD (w - j) = bitAt L j) ∧
  (∀ N (r : Bits), r.length = K N →
    (∀ i, i < K N → (toLsbPort (K N) r).getLsbD i = r.getD i false) ∧
    (toLsbPort (K N) r).toNat = ((List.range (K N)).map fun i => (r.getD i false).toNat * 2 ^ i).sum) ∧
  toPort 12 [true, false, false, false, true, false, false, true, false, false, false, true] = 0x891#12 ∧
  toPort 8 (byteBits 65) = 0x41#8

/-! Commands (30_encoding.md). -/

/-- Decoding the word of a command that fits gives the command back, every field at every value it admits, and the word has
`M + 1` bits (from R71, R73, R74, R78). -/
def Obligations.DecodeEncodeCommand : Prop :=
  ∀ N (i : Instr), i.wellFormed N = true → encode N i < 2 ^ (M N + 1) ∧ decode N (encode N i) = .ok i

/-- From R77: every word of `M + 1` bits is a legal command with a defined response; the word is the encoding of that command
and of no other that fits; ENCODE's upper field changes no response; the status code 11 is never a response's. The last clause
is the model's, DEDUCED from R45 and R78 (log entry 10): a number that needs more than `M + 1` bits is refused by the decoder. -/
def Obligations.EveryCommandWordIsLegal : Prop :=
  ∀ N cmd,
    (cmd < 2 ^ (M N + 1) →
      ∃ i, decode N cmd = .ok i ∧ i.wellFormed N = true ∧ encode N i = cmd ∧
        (∀ i', Instr.wellFormed N i' = true → encode N i' = cmd → i' = i) ∧
        (∀ x x' d, i = .encode x d → respond N (.encode x' d) = respond N i) ∧ (respond N i).status ≠ 0b11#2) ∧
    (2 ^ (M N + 1) ≤ cmd → decode N cmd = .error .widerThanCommand)

/-- R72: `cmd_op` = 0 selects ENCODE and `cmd_op` = 1 selects DECODE. R81: each word of `M + 1` bits matches exactly one row
of the opcode table, the row of the command it decodes to. With the table of `N = 8`. -/
def Obligations.OpcodeRowsPartitionWords : Prop :=
  (∀ N cmd i, decode N cmd = .ok i →
    (i.mnemonic = "ENCODE" ↔ cmd.testBit (M N) = false) ∧ (i.mnemonic = "DECODE" ↔ cmd.testBit (M N) = true) ∧
    ∀ row, row ∈ opcodeTable N → (cmd &&& row.mask = row.pattern ↔ row.mnemonic = i.mnemonic)) ∧
  opcodeTable 8 = [{ mnemonic := "ENCODE", pattern := 0x0000, mask := 0x1000 },
                   { mnemonic := "DECODE", pattern := 0x1000, mask := 0x1000 }]

/-- R71's field table, read off the command word bit by bit: ENCODE has 0 in bit `M`, the ignored field in bits `M−1..N` and
`d[i]` in bit `N − i`; DECODE has 1 in bit `M` and `c[j]` in bit `M − j`. -/
def Obligations.CommandFieldPlacement : Prop :=
  (∀ N x d, (Instr.encode x d).wellFormed N = true →
    (encode N (.encode x d)).testBit (M N) = false ∧
    (∀ b, b < K N → (encode N (.encode x d)).testBit (N + b) = x.testBit b) ∧
    ∀ i, 1 ≤ i → i ≤ N → (encode N (.encode x d)).testBit (N - i) = bitAt (dataBits (dataOperand N d)) i) ∧
  (∀ N c, (Instr.decode c).wellFormed N = true →
    (encode N (.decode c)).testBit (M N) = true ∧
    ∀ j, 1 ≤ j → j ≤ M N → (encode N (.decode c)).testBit (M N - j) = bitAt (codeBits (codeOperand N c)) j)

/-- R73: ENCODE's response is computed from `cmd_word[N-1:0]` alone, `d[i] = cmd_word[N−i]`: two words that agree there have
the same response, whatever their upper `K` bits. -/
def Obligations.EncodeIgnoresUpperBits : Prop :=
  ∀ N (w w' : BitVec (M N)), (∀ b, b < N → w.getLsbD b = w'.getLsbD b) →
    F N false w = F N false w' ∧
    ∀ i, 1 ≤ i → i ≤ N → bitAt (dataBits (F N false w).data) i = w.getLsbD (N - i)

/-- R81's reference commands for `N = 8`, each word decoded and answered. A sanity check on four words. -/
def Obligations.ReferenceCommands : Prop :=
  decode 8 0x0041 = .ok (.encode 0 0x41) ∧ decode 8 0x1891 = .ok (.decode 0x891) ∧
  decode 8 0x1A91 = .ok (.decode 0xA91) ∧ decode 8 0x1890 = .ok (.decode 0x890) ∧
  respond 8 (.encode 0 0x41) = { op := false, code := 0x891#12, data := 0x41#8, status := 0b00#2, syndrome := 0#4 } ∧
  respond 8 (.decode 0x891) = { op := true, code := 0x891#12, data := 0x41#8, status := 0b00#2, syndrome := 0#4 } ∧
  respond 8 (.decode 0xA91) = { op := true, code := 0x891#12, data := 0x41#8, status := 0b01#2, syndrome := 3#4 } ∧
  respond 8 (.decode 0x890) = { op := true, code := 0x890#12, data := 0x40#8, status := 0b10#2, syndrome := 12#4 }

/-- R79, binary operands: exactly `N` (ENCODE) or `M` (DECODE) characters assemble to the command of that value; any other
number of them, or any other character, is refused. -/
def Obligations.AssemblerBinaryOperands : Prop :=
  (∀ N (b : Bits), b ≠ [] →
    assembleLine N (encodeName ++ ' ' :: b.map bitChar)
      = (if b.length = N then .ok (some (.encode 0 (msbValue b))) else .error .badOperand) ∧
    assembleLine N (decodeName ++ ' ' :: b.map bitChar)
      = (if b.length = M N then .ok (some (.decode (msbValue b))) else .error .badOperand)) ∧
  (∀ N (operand : List Char), operand.take 2 ≠ ['0', 'x'] →
    (∀ x, x ∈ operand → isBlank x = false ∧ x ≠ ';') → (∃ x, x ∈ operand ∧ x ≠ '0' ∧ x ≠ '1') →
    assembleLine N (encodeName ++ ' ' :: operand) = .error .badOperand ∧
    assembleLine N (decodeName ++ ' ' :: operand) = .error .badOperand)

/-- R79, hexadecimal operands: `0x` and digits assemble to the command of their value when it is less than `2^N` (ENCODE) or
`2^M` (DECODE) and are refused otherwise; ENCODE's word is then the data word with all other bits 0, DECODE's is
`2^M + value`; `;` starts a comment. The digit letters are upper case here, as the rule's examples have them. -/
def Obligations.AssemblerHexOperands : Prop :=
  (∀ N (ds : List (Fin 16)), ds ≠ [] →
    assembleLine N (encodeName ++ ' ' :: '0' :: 'x' :: ds.map fun d => "0123456789ABCDEF".toList.getD d.val '0')
      = (if Nat.ofDigits 16 (ds.reverse.map Fin.val) < 2 ^ N
          then .ok (some (.encode 0 (Nat.ofDigits 16 (ds.reverse.map Fin.val)))) else .error .badOperand) ∧
    assembleLine N (decodeName ++ ' ' :: '0' :: 'x' :: ds.map fun d => "0123456789ABCDEF".toList.getD d.val '0')
      = (if Nat.ofDigits 16 (ds.reverse.map Fin.val) < 2 ^ M N
          then .ok (some (.decode (Nat.ofDigits 16 (ds.reverse.map Fin.val)))) else .error .badOperand)) ∧
  (∀ N d, encode N (.encode 0 d) = d) ∧ (∀ N c, encode N (.decode c) = 2 ^ M N + c) ∧
  ∀ N (line comment : List Char), assembleLine N (line ++ ';' :: comment) = assembleLine N line

/-! ENCODE (41_encode.md). -/

/-- R121: each placeholder lands strictly inside the growing list; after the `K` insertions the list has `M` bits, a 0 at each
parity position, and the data bits at the data positions in order. -/
def Obligations.PlaceholderInsertion : Prop :=
  ∀ N (d : Bits), d.length = N →
    (∀ i, i < K N → 2 ^ i ≤ N + i) ∧
    (∀ k, k ≤ K N → ((List.range k).foldl (fun c i => insertAt c (2 ^ i) false) d).length = N + k) ∧
    (insertPlaceholders N d).length = M N ∧
    (∀ i, i < K N → bitAt (insertPlaceholders N d) (2 ^ i) = false) ∧
    ∀ t, t < N → bitAt (insertPlaceholders N d) ((Q N).getD t 0) = d.getD t false

/-- R122: each parity bit is the XOR of the data bits at the positions whose index has that bit set, and the parity value the
XOR of the positions of the 1s of the data; the order of the overwrites does not matter; neither would computing `r` anew
after each of them. -/
def Obligations.ParityComputation : Prop :=
  ∀ N (d : Bits), d.length = N →
    (∀ i, i < K N → (mulVec N (insertPlaceholders N d)).getD i false
      = xorAll (((Q N).zip d).filterMap fun q => if bit q.1 i then some q.2 else none)) ∧
    lsbValue (mulVec N (insertPlaceholders N d))
      = xorNat (((Q N).zip d).filterMap fun q => if q.2 then some q.1 else none) ∧
    (∀ order : List Nat, order.Perm (List.range (K N)) →
      order.foldl (fun c i => setAt c ((mulVec N (insertPlaceholders N d)).getD i false) (2 ^ i)) (insertPlaceholders N d)
        = encodeBits N d) ∧
    (List.range (K N)).foldl (fun c i => setAt c ((mulVec N c).getD i false) (2 ^ i)) (insertPlaceholders N d)
      = encodeBits N d

/-- R120, R124: every field of ENCODE's response: `rsp_op` 0, the data word unchanged, CLEAN, syndrome 0, and the codeword bit
by bit: the data bits at the data positions, and at `2^i` the XOR of the data bits at positions whose index has bit `i`
set. -/
def Obligations.EncodeResponseFields : Prop :=
  ∀ N x d,
    (respond N (.encode x d)).op = false ∧ (respond N (.encode x d)).data = BitVec.ofNat N d ∧
    (respond N (.encode x d)).status = 0b00#2 ∧ (respond N (.encode x d)).syndrome = 0 ∧
    (∀ t, t < N → bitAt (codeBits (respond N (.encode x d)).code) ((Q N).getD t 0) = d.testBit (N - 1 - t)) ∧
    ∀ i, i < K N → bitAt (codeBits (respond N (.encode x d)).code) (2 ^ i)
      = xorAll ((List.range N).map fun t => bit ((Q N).getD t 0) i && d.testBit (N - 1 - t))

/-- R123: ENCODE's codeword `c` satisfies `H · c = 0`, so DECODE of it reports CLEAN with `s = 0`; it holds `d[t]` at `Q[t]`
and `r[i]` at `2^i`, and stripping it returns `d`; ENCODE is injective and linear; the zero word gives the zero codeword. -/
def Obligations.EncodeCodewordProperties : Prop :=
  ∀ N,
    (∀ D : BitVec N,
      mulVec N (codeBits (encodeResponse N D).code) = List.replicate (K N) false ∧
      xorNat (onePositions (codeBits (encodeResponse N D).code)) = 0 ∧
      (decodeResponse N (encodeResponse N D).code).status = Status.clean.code ∧
      (decodeResponse N (encodeResponse N D).code).syndrome = 0 ∧
      (∀ t, t < N → bitAt (codeBits (encodeResponse N D).code) ((Q N).getD t 0) = (dataBits D).getD t false) ∧
      (∀ i, i < K N → bitAt (codeBits (encodeResponse N D).code) (2 ^ i)
        = (mulVec N (insertPlaceholders N (dataBits D))).getD i false) ∧
      stripParity N (codeBits (encodeResponse N D).code) = dataBits D) ∧
    (∀ D D' : BitVec N, (encodeResponse N D).code = (encodeResponse N D').code → D = D') ∧
    (∀ D D' : BitVec N, (encodeResponse N (D ^^^ D')).code = (encodeResponse N D).code ^^^ (encodeResponse N D').code) ∧
    (encodeResponse N 0).code = 0

/-- R125's corner cases: the all-zero and all-ones words, `N = 1`, full-length `N`, the ignored bits. Sanity checks. -/
def Obligations.EncodeCornerCases : Prop :=
  (encodeResponse 8 0x00#8).code = 0x000#12 ∧ (encodeResponse 8 0xFF#8).code = 0xEEF#12 ∧
  (encodeResponse 1 0#1).code = 0b000#3 ∧ (encodeResponse 1 1#1).code = 0b111#3 ∧
  (encodeResponse 4 0b1011#4).code = 0x33#7 ∧ (encodeResponse 4 0b1110#4).code = 0x16#7 ∧
  (encodeResponse 11 0x7FF#11).code = 0x7FFF#15 ∧
  (decode 8 0x0041).map (respond 8) = (decode 8 0x0F41).map (respond 8)

/-! DECODE (42_decode.md). -/

/-- R141: the syndrome value is the XOR of the positions of the 1s of the received word; it fits in `K` bits; the response
carries it, `r[i]` in bit `i`. -/
def Obligations.SyndromeIsXorOfPositions : Prop :=
  ∀ N (C : BitVec (M N)),
    syndromeValue N (codeBits C) = xorNat (onePositions (codeBits C)) ∧ syndromeValue N (codeBits C) ≤ 2 ^ K N - 1 ∧
    (decodeResponse N C).syndrome.toNat = syndromeValue N (codeBits C) ∧
    ∀ i, i < K N → (decodeResponse N C).syndrome.getLsbD i = (mulVec N (codeBits C)).getD i false

/-- R142, R144: DECODE's `rsp_op`, status and `rsp_code` by the syndrome value `s`, which is reported for every status: `s = 0`
is CLEAN and `0 < s < M` CORRECTED with position `s`, and no other, inverted; `s ≥ M`, `s = M` included, is UNCORRECTABLE and
leaves the word as it is; such an `s` always fits in `K` bits. `rsp_data` is the stripped word. R5's `1 ≤ N` makes the three
cases exclude each other: at `N = 0`, which is no instance, `M` would be 0. -/
def Obligations.CorrectionPolicy : Prop :=
  (∀ N (C : BitVec (M N)), 1 ≤ N →
    (decodeResponse N C).op = true ∧
    (decodeResponse N C).syndrome = BitVec.ofNat (K N) (xorNat (onePositions (codeBits C))) ∧
    (∀ t, t < N → (dataBits (decodeResponse N C).data).getD t false
      = bitAt (codeBits (decodeResponse N C).code) ((Q N).getD t 0)) ∧
    (xorNat (onePositions (codeBits C)) = 0 →
      (decodeResponse N C).status = 0b00#2 ∧ (decodeResponse N C).code = C) ∧
    (0 < xorNat (onePositions (codeBits C)) → xorNat (onePositions (codeBits C)) < M N →
      (decodeResponse N C).status = 0b01#2 ∧
      ∀ j, 1 ≤ j → j ≤ M N → bitAt (codeBits (decodeResponse N C).code) j
        = (if j = xorNat (onePositions (codeBits C)) then !bitAt (codeBits C) j else bitAt (codeBits C) j)) ∧
    (M N ≤ xorNat (onePositions (codeBits C)) →
      (decodeResponse N C).status = 0b10#2 ∧ (decodeResponse N C).code = C)) ∧
  ∀ N, 1 ≤ N → M N < 2 ^ K N

/-- R143: each removal, in descending order, deletes the bit that stood at that position of the whole word, and the `N` bits
left are those of the data positions, in order. -/
def Obligations.StrippingKeepsDataPositions : Prop :=
  ∀ N (c : Bits), c.length = M N →
    (∀ i, i < K N →
      bitAt (((List.range' (i + 1) (K N - (i + 1))).reverse).foldl (fun e k => removeAt e (2 ^ k)) c) (2 ^ i)
        = bitAt c (2 ^ i)) ∧
    stripParity N c = (Q N).map (bitAt c)

/-- DECODE of ENCODE's codeword returns the codeword and the data word with CLEAN and syndrome 0, for every block length and
every data word (from R123(a), (b) and R142). -/
def Obligations.EncodeThenDecodeRoundTrip : Prop :=
  ∀ N (D : BitVec N), decodeResponse N (encodeResponse N D).code
    = { op := true, code := (encodeResponse N D).code, data := D, status := Status.clean.code, syndrome := 0 }

/-- R145: with one position `p` of a codeword inverted, DECODE has `s = p`; for `p ≤ M − 1` it restores codeword and data and
says CORRECTED; at `p = M` it says UNCORRECTABLE, passes the word through, and the data has `d[N]` inverted. -/
def Obligations.SingleErrorCorrection : Prop :=
  ∀ N (D : BitVec N) p, 1 ≤ N → 1 ≤ p → p ≤ M N →
    (p ≤ M N - 1 → decodeResponse N (invert N (encodeResponse N D).code [p])
      = { op := true, code := (encodeResponse N D).code, data := D, status := Status.corrected.code
          syndrome := BitVec.ofNat (K N) p }) ∧
    (p = M N → decodeResponse N (invert N (encodeResponse N D).code [p])
      = { op := true, code := invert N (encodeResponse N D).code [p], data := toPort N (flipAt (dataBits D) N)
          status := Status.uncorrectable.code, syndrome := BitVec.ofNat (K N) (M N) })

/-- R146: with a set of positions of a codeword inverted, the syndrome value is their XOR. A double error is never CLEAN and
its `s` is neither position; with `s < M` a third position is inverted and wrong data reported as CORRECTED, with `s ≥ M` it is
UNCORRECTABLE. Inverting positions 1, 2 and 3 is reported CLEAN with wrong data. With the rule's examples. -/
def Obligations.MultipleErrors : Prop :=
  (∀ N (D : BitVec N) (E : List Nat), E.Nodup → (∀ p, p ∈ E → 1 ≤ p ∧ p ≤ M N) →
    (decodeResponse N (invert N (encodeResponse N D).code E)).syndrome = BitVec.ofNat (K N) (xorNat E) ∧
    syndromeValue N (codeBits (invert N (encodeResponse N D).code E)) = xorNat E) ∧
  (∀ N (D : BitVec N) p q, 1 ≤ p → p ≤ M N → 1 ≤ q → q ≤ M N → p ≠ q →
    p ^^^ q ≠ 0 ∧ p ^^^ q ≠ p ∧ p ^^^ q ≠ q ∧
    (decodeResponse N (invert N (encodeResponse N D).code [p, q])).status ≠ Status.clean.code ∧
    (p ^^^ q < M N →
      (decodeResponse N (invert N (encodeResponse N D).code [p, q])).status = Status.corrected.code ∧
      (decodeResponse N (invert N (encodeResponse N D).code [p, q])).code
        = invert N (encodeResponse N D).code [p, q, p ^^^ q] ∧
      (decodeResponse N (invert N (encodeResponse N D).code [p, q])).data ≠ D) ∧
    (M N ≤ p ^^^ q →
      (decodeResponse N (invert N (encodeResponse N D).code [p, q])).status = Status.uncorrectable.code)) ∧
  (∀ N (D : BitVec N), 1 ≤ N →
    (decodeResponse N (invert N (encodeResponse N D).code [1, 2, 3])).status = Status.clean.code ∧
    (decodeResponse N (invert N (encodeResponse N D).code [1, 2, 3])).data ≠ D) ∧
  decodeResponse 8 (invert 8 0x891#12 [3, 5])
    = { op := true, code := 0xA51#12, data := 0b10100001#8, status := Status.corrected.code, syndrome := 6 }

/-- R147: a single error at a parity position `2^i` is CORRECTED with `s = 2^i`, and stripping the received word without the
correction would return the same data. -/
def Obligations.ParityBitErrors : Prop :=
  ∀ N (D : BitVec N) i, i < K N →
    decodeResponse N (invert N (encodeResponse N D).code [2 ^ i])
      = { op := true, code := (encodeResponse N D).code, data := D, status := Status.corrected.code
          syndrome := BitVec.ofNat (K N) (2 ^ i) } ∧
    toPort N (stripParity N (codeBits (invert N (encodeResponse N D).code [2 ^ i]))) = D

/-- R150's corner cases: the all-zero and all-ones words, `s` above `M`, `N = 1`. Sanity checks. -/
def Obligations.DecodeCornerCases : Prop :=
  decodeResponse 8 0xA91#12 = { op := true, code := 0x891#12, data := 0x41#8, status := 0b01#2, syndrome := 3#4 } ∧
  decodeResponse 8 0x000#12 = { op := true, code := 0x000#12, data := 0x00#8, status := 0b00#2, syndrome := 0#4 } ∧
  decodeResponse 8 0xFFF#12 = { op := true, code := 0xFFF#12, data := 0xFF#8, status := 0b10#2, syndrome := 12#4 } ∧
  (decodeResponse 8 0x090#12).status = 0b10#2 ∧ (decodeResponse 8 0x090#12).syndrome = 13#4 ∧
  (decodeResponse 8 0xC90#12).status = 0b10#2 ∧ (decodeResponse 8 0xC90#12).syndrome = 14#4 ∧
  (decodeResponse 8 0xA90#12).status = 0b10#2 ∧ (decodeResponse 8 0xA90#12).syndrome = 15#4 ∧
  (decodeResponse 1 0b001#3).status = 0b10#2 ∧ (decodeResponse 1 0b001#3).data = 1#1 ∧
  (decodeResponse 1 0b110#3).status = 0b10#2 ∧ (decodeResponse 1 0b110#3).data = 0#1 ∧
  (∀ C : BitVec 3, C ∈ [0b100#3, 0b010#3, 0b011#3, 0b101#3] → (decodeResponse 1 C).status = 0b01#2) ∧
  (∀ s, 1 ≤ s → s ≤ 6 → classify 4 s = .corrected) ∧ classify 4 7 = .uncorrectable

/-! Commands and cycles of the machine (30_encoding.md section 1, 70_reset_and_hazards.md, 10_state.md). -/

/-- ENCODE answers a next state from every state, with any fields: the instance's parameters are unchanged, its response
enters the pipeline or, with no stages, the port, and nothing else changes but what a cycle moves (from R120, R203). What the
response holds is `EncodeResponseFields`. That stage 1 then holds the finished response is the model's choice (log entry 6;
R27 leaves a stage's data open), and the inputs to come and the cycle number are the model's own fields (log entries 3, 2). -/
def Obligations.EncodeCompletes : Prop :=
  ∀ x d (p : Params) (b : Block p.N), ∃ b', exec (.encode x d) ⟨p, b⟩ = .next ⟨p, b'⟩ ∧ Accepts (respond p.N (.encode x d)) b b'

/-- DECODE answers a next state from every state, with any codeword, whatever its syndrome: the parameters are unchanged, its
response enters the pipeline or the port, and nothing else changes but what a cycle moves (from R140, R149, R203). What the
response holds is `CorrectionPolicy`. That stage 1 then holds the finished response is the model's choice (log entry 6; R27
leaves a stage's data open), and the inputs to come and the cycle number are the model's own fields (log entries 3, 2). -/
def Obligations.DecodeCompletes : Prop :=
  ∀ c (p : Params) (b : Block p.N), ∃ b', exec (.decode c) ⟨p, b⟩ = .next ⟨p, b'⟩ ∧ Accepts (respond p.N (.decode c)) b b'

/-- A step runs the command that the command word on the ports decodes to, in the state whose coming inputs have moved on;
and so after `withFetchWord`, the model's own (log entry 5), as is the list of coming inputs (log entry 3). From R70, R71,
R202. -/
def Obligations.StepRunsPresentedCommand : Prop :=
  (∀ (p : Params) (b : Block p.N) (op : Bool) (word : BitVec (M p.N)) rest i,
    b.stimulus = { rst := false, cmdValid := true, cmdOp := op, cmdWord := word } :: rest →
    decode p.N (op.toNat * 2 ^ M p.N + word.toNat) = .ok i →
    step ⟨p, b⟩ = exec i ⟨p, { b with stimulus := rest }⟩) ∧
  ∀ (p : Params) (b : Block p.N) nbits w i, decode p.N (w % 2 ^ nbits) = .ok i →
    step ((State.mk p b).withFetchWord nbits w) = exec i ⟨p, { b with stimulus := b.stimulus.tail }⟩

/-- From R202: a command is accepted if and only if `cmd_valid` = 1 and `rst` = 0: in any other cycle the command ports are
ignored and nothing enters the pipeline, or is presented when there are no stages; in such a cycle the command's response
does. That what enters stage 1 is the finished response is the model's choice (log entry 6; R27 leaves a stage's data open). -/
def Obligations.AcceptedIffValidAndNotReset : Prop :=
  ∀ (p : Params) (b : Block p.N) (i : Inputs p.N) rest, b.stimulus = i :: rest →
    (i.rst = true ∨ i.cmdValid = false →
      (∀ op word, step ⟨p, b⟩ = step ⟨p, { b with stimulus := { i with cmdOp := op, cmdWord := word } :: rest }⟩) ∧
      ∃ b', step ⟨p, b⟩ = .next ⟨p, b'⟩ ∧ (b.pipe = [] → b'.out.valid = false) ∧
        ∀ x, b'.pipe.head? = some x → x.valid = false) ∧
    (i.rst = false → i.cmdValid = true →
      ∃ b', step ⟨p, b⟩ = .next ⟨p, b'⟩ ∧ Accepts (F p.N i.cmdOp i.cmdWord) { b with stimulus := rest } b')

/-- From R201: at an edge with `rst` = 1 every valid bit becomes 0, the number of stages and the elaboration constants stay;
with no stages `rst` only blocks acceptance. From R203: the response due in that cycle is still presented; that it is what the
last stage holds is the model's choice (log entry 6; R27 leaves a stage's data open). The inputs that remain are the model's
own field (log entry 3). -/
def Obligations.ResetCycleClearsPipeline : Prop :=
  ∀ (p : Params) (b : Block p.N) (i : Inputs p.N) rest, b.stimulus = i :: rest → i.rst = true →
    ∃ b', step ⟨p, b⟩ = .next ⟨p, b'⟩ ∧ b'.Drained ∧ b'.pipe.length = b.pipe.length ∧ b'.stimulus = rest ∧
      (b.pipe = [] → b'.out.valid = false) ∧ ∀ x, b.pipe.getLast? = some x → b'.out.response = x.response

/-- R170: no command and no input makes the block stop: every step from every state answers a next state of the same
instance. -/
def Obligations.EveryStepAnswersNext : Prop :=
  ∀ (p : Params) (b : Block p.N), ∃ b', step ⟨p, b⟩ = .next ⟨p, b'⟩

/-- R206: the block holds no response for the host: what the port showed in the last cycle changes nothing of the next. -/
def Obligations.OutputsAreNotHeld : Prop :=
  ∀ (p : Params) (b : Block p.N) (o : Slot p.N), step ⟨p, { b with out := o }⟩ = step ⟨p, b⟩

/-- From R27: the data of a stage whose valid bit is 0 is unobservable: two blocks that differ only there show the same
responses and stay so. -/
def Obligations.InvalidStageDataUnobservable : Prop :=
  ∀ (p : Params) (a b a' b' : Block p.N), a.Alike b → step ⟨p, a⟩ = .next ⟨p, a'⟩ → step ⟨p, b⟩ = .next ⟨p, b'⟩ →
    a'.Alike b' ∧ a'.out.Alike b'.out

/-- R203: from an empty pipeline, the response port in each cycle shows exactly the response `F` of the command accepted
`LATENCY` cycles before, unless `rst` was 1 in a cycle strictly between; in every other cycle `rsp_valid` is 0. For every
`LATENCY`, 0 included. -/
def Obligations.ResponseTiming : Prop :=
  ∀ (p : Params) (f : Nat → Block p.N) (ins : List (Inputs p.N)),
    Execution p f → (f 0).pipe.length = p.latency → (f 0).Drained → (f 0).stimulus = ins →
    ∀ t, (f (t + 1)).out.response = responseDue p.latency ins t

/-- R209: once every command has had its `LATENCY` cycles, the responses presented are `F` over the accepted commands, in the
order of acceptance, less those a reset discards; with no reset, over all of them. -/
def Obligations.ResponsesAreMapF : Prop :=
  ∀ (p : Params) (f : Nat → Block p.N) (ins : List (Inputs p.N)),
    Execution p f → (f 0).pipe.length = p.latency → (f 0).Drained → (f 0).stimulus = ins →
    ∀ n, ins.length + p.latency ≤ n →
      presented f n = answers p.latency ins ∧
      ((∀ i, i ∈ ins → i.rst = false) →
        presented f n = (ins.filter Inputs.accepts).map fun i => F p.N i.cmdOp i.cmdWord)

/-- From R201, R203, R204: from any state, stale valid bits included, one cycle with `rst` = 1 is enough: no spurious response
follows, and the responses from then on are those due to the inputs that follow. This reading is the model's (DEDUCED, log
entry 9): it follows R201, R203 and R204 against entry U9, which lets `rsp_valid` be 1 until `LATENCY` cycles after the first
reset edge. The inputs to come are the model's own field (log entry 3). -/
def Obligations.ResetAfterPowerUp : Prop :=
  ∀ (p : Params) (f : Nat → Block p.N) (i : Inputs p.N) (ins : List (Inputs p.N)),
    Execution p f → (f 0).pipe.length = p.latency → (f 0).stimulus = i :: ins → i.rst = true →
    ∀ t, (f (t + 2)).out.response = responseDue p.latency ins t

/-- R20: a response is a function of its own command and of `N` alone: in two executions, of whatever latencies and
histories, the same command gets the same response. -/
def Obligations.ResponseIndependentOfHistory : Prop :=
  ∀ N L L' (f g : Nat → Block N) (ins ins' : List (Inputs N)) t t',
    Execution ⟨N, L⟩ f → (f 0).pipe.length = L → (f 0).Drained → (f 0).stimulus = ins →
    Execution ⟨N, L'⟩ g → (g 0).pipe.length = L' → (g 0).Drained → (g 0).stimulus = ins' →
    inputsAt ins t = inputsAt ins' t' → (inputsAt ins t).accepts = true →
    discarded L ins t = false → discarded L' ins' t' = false →
    (f (t + L + 1)).out = (g (t' + L' + 1)).out ∧ (f (t + L + 1)).out.valid = true

/-- Every step keeps the invariant of an elaborated instance: `N ≥ 1`, exactly `LATENCY` stages, every presented response is
`F` of a command, and so is what every valid stage in flight holds; `N` and `LATENCY` never change (from R5, R23, R27, R71).
The half about stages in flight is about the model's stages, which hold the finished response (log entry 6; R27 leaves a
stage's data open). -/
def Obligations.StepKeepsInvariant : Prop :=
  ∀ s s' : State, s.WF → s.Genuine → step s = .next s' → s'.WF ∧ s'.Genuine ∧ s'.params = s.params

/-- The state after reset of every instance has the invariant of `StepKeepsInvariant`, and so has `State.reset` (from R29). No
slot is valid there, so its half on responses rests on no choice of the model. -/
def Obligations.ResetHasInvariant : Prop :=
  (∀ p : Params, p.wf → (State.elaborate p).WF ∧ (State.elaborate p).Genuine) ∧ State.reset.WF ∧ State.reset.Genuine

/-- From R29: right after reset every stage's valid bit is 0, there are `LATENCY` of them, `rsp_valid` is 0; and the default
instance has `N = 8`, `K = 4`, `M = 12`. Nothing is said of the values R29 leaves unspecified. -/
def Obligations.StateAfterReset : Prop :=
  (∀ p : Params, (State.elaborate p).params = p ∧ (State.elaborate p).block.Drained ∧
    (State.elaborate p).block.pipe.length = p.latency ∧ (State.elaborate p).block.out.valid = false) ∧
  State.reset.params.N = 8 ∧ K State.reset.params.N = 4 ∧ M State.reset.params.N = 12

/-- From R76: in every state with the invariant of `StepKeepsInvariant` (`N ≥ 1` is R5's; what the model's stages hold is log
entry 6), no response that a step presents carries the reserved status code 11; CLEAN comes with every ENCODE response and
with `s = 0`, CORRECTED with `0 < s < M`, UNCORRECTABLE with `s ≥ M`, for DECODE. -/
def Obligations.PresentedStatusCodes : Prop :=
  ∀ (p : Params) (b b' : Block p.N) r, (State.mk p b).WF → (State.mk p b).Genuine → step ⟨p, b⟩ = .next ⟨p, b'⟩ → b'.out.response = some r →
    r.status ≠ 0b11#2 ∧
    (r.status = 0b00#2 ↔ r.op = false ∨ r.syndrome.toNat = 0) ∧
    (r.status = 0b01#2 ↔ r.op = true ∧ 0 < r.syndrome.toNat ∧ r.syndrome.toNat < M p.N) ∧
    (r.status = 0b10#2 ↔ r.op = true ∧ M p.N ≤ r.syndrome.toNat)

/-! The host around the block (20_memory.md section 5). -/

/-- R44: bytes follow input order and each is expanded most significant bit first: a group of `g` bytes gives, for `N = 8g`,
the data value with the first byte in the most significant 8 bits. -/
def Obligations.HostByteOrder : Prop :=
  ∀ (G : List Nat), (∀ B, B ∈ G → B < 256) →
    (groupBits (8 * G.length) G).length = 8 * G.length ∧
    msbValue (groupBits (8 * G.length) G) = Nat.ofDigits 256 G.reverse ∧
    ∀ B, B ∈ G → byteBits B = (List.range 8).map fun k => B.testBit (7 - k)

/-- From R54: the host refuses an encoded string whose length is not a multiple of `M` or that has a character other than '0'
or '1', and an input character wider than 8 bits, for every `N` and whatever it does for an `N` that is no multiple of 8; by
default it refuses such an `N`, naming that reason where no other precondition fails. That a wide character is named first
where `N` is refused too is the model's choice (log entry 12); R54 gives its preconditions no order. -/
def Obligations.HostRefusals : Prop :=
  (∀ N (other : NonByteFraming N) (E : List Char), E.length % M N ≠ 0 → ∃ e, hostDecode N E other = .error e) ∧
  (∀ N (other : NonByteFraming N) (E : List Char), (∃ x, x ∈ E ∧ x ≠ '0' ∧ x ≠ '1') →
    ∃ e, hostDecode N E other = .error e) ∧
  (∀ N (other : NonByteFraming N) (T : List Nat), (∃ B, B ∈ T ∧ 256 ≤ B) →
    hostEncode N T other = .error .wideCharacter) ∧
  ∀ N, N % 8 ≠ 0 →
    (∀ T, ∃ e, hostEncode N T = .error e) ∧ (∀ E, ∃ e, hostDecode N E = .error e) ∧
    (∀ T, (∀ B, B ∈ T → B < 256) → hostEncode N T = .error .notWholeBytes) ∧
    ∀ E : List Char, E.length % M N = 0 → (∀ x, x ∈ E → x = '0' ∨ x = '1') → hostDecode N E = .error .notWholeBytes

/-- R55: for `N` a multiple of 8, `L` bytes encode to `ceil(8·L / N) · M` characters. -/
def Obligations.HostEncodedLength : Prop :=
  ∀ N (T : List Nat), wholeBytes N → (∀ B, B ∈ T → B < 256) →
    ∃ E, hostEncode N T = .ok E ∧ E.length = (8 * T.length + (N - 1)) / N * M N

/-- R56: when `N/8` does not divide the number of bytes, decoding returns the whole groups, then zero bytes up to the group
size, then the last group's bytes. -/
def Obligations.HostShortFinalGroup : Prop :=
  ∀ N (T : List Nat), wholeBytes N → (∀ B, B ∈ T → B < 256) → T.length % (N / 8) ≠ 0 →
    ∃ E statuses, hostEncode N T = .ok E ∧
      hostDecode N E = .ok (T.take (T.length - T.length % (N / 8)) ++ List.replicate (N / 8 - T.length % (N / 8)) 0
        ++ T.drop (T.length - T.length % (N / 8)), statuses)

/-- R57: a text whose bit length is a multiple of `N` comes back from an unchanged encoded string, every status CLEAN; with
one bit inverted, at position `p` of a block, it comes back with that block CORRECTED at `p` when `p ≤ M − 1`, and does not
come back when `p = M`. -/
def Obligations.HostRoundTrip : Prop :=
  ∀ N (T : List Nat), wholeBytes N → (∀ B, B ∈ T → B < 256) → 8 * T.length % N = 0 →
    ∃ E, hostEncode N T = .ok E ∧
      hostDecode N E = .ok (T, List.replicate (8 * T.length / N) (Status.clean.code, 0)) ∧
      ∀ q, q < E.length →
        (q % M N + 1 ≤ M N - 1 →
          hostDecode N (E.set q (bitChar (E.getD q '0' != '1')))
            = .ok (T, (List.replicate (8 * T.length / N) (Status.clean.code, 0)).set (q / M N)
                (Status.corrected.code, BitVec.ofNat (K N) (q % M N + 1)))) ∧
        (q % M N + 1 = M N → ∃ T' statuses,
          hostDecode N (E.set q (bitChar (E.getD q '0' != '1'))) = .ok (T', statuses) ∧ T' ≠ T ∧
            statuses[q / M N]? = some (Status.uncorrectable.code, BitVec.ofNat (K N) (M N)))
end

