-- ==== Sys2Proof/Laws/BitOps.lean ====
section
/-! SUPPORT. What the primitives on bit lists do to the length and to each position, and the bounds of the two numeral
readings. -/

namespace Sys2Proof

@[simp] theorem bitAt_zero (L : Bits) : bitAt L 0 = false := rfl
@[simp] theorem bitAt_succ (L : Bits) (p : Nat) : bitAt L (p + 1) = L.getD p false := rfl

theorem bitAt_of_pos (L : Bits) {p : Nat} (h : 1 ≤ p) : bitAt L p = L.getD (p - 1) false := by
  obtain ⟨q, rfl⟩ := Nat.exists_eq_add_of_le' h
  rfl

/-- Positions past the end hold 0. -/
theorem bitAt_of_length_lt (L : Bits) {p : Nat} (h : L.length < p) : bitAt L p = false := by
  rw [bitAt_of_pos L (by omega), List.getD_eq_default _ _ (by omega)]

@[simp] theorem length_setAt (L : Bits) (b : Bool) (p : Nat) : (setAt L b p).length = L.length := by
  cases p <;> simp [setAt]

@[simp] theorem length_flipAt (L : Bits) (p : Nat) : (flipAt L p).length = L.length := length_setAt L _ p

theorem length_insertAt (L : Bits) (p : Nat) (b : Bool) : (insertAt L p b).length = L.length + 1 := by
  simp only [insertAt, List.length_append, List.length_take, List.length_cons, List.length_drop]
  omega

theorem length_removeAt (L : Bits) {p : Nat} (h : 1 ≤ p) (hp : p ≤ L.length) : (removeAt L p).length = L.length - 1 := by
  simp only [removeAt, List.length_append, List.length_take, List.length_drop]
  omega

/-- A write at a position of the list is what is read there; every other position reads as before. -/
theorem bitAt_setAt (L : Bits) (b : Bool) {p : Nat} (q : Nat) (h : 1 ≤ p) (hp : p ≤ L.length) :
    bitAt (setAt L b p) q = if q = p then b else bitAt L q := by
  obtain ⟨p, rfl⟩ := Nat.exists_eq_add_of_le' h
  cases q with
  | zero => simp
  | succ q =>
    by_cases e : q = p
    · subst e
      simp [setAt, show q < L.length by omega]
    · have e' : ¬ p = q := fun he => e he.symm
      simp [setAt, e, e']

theorem bitAt_flipAt (L : Bits) {p : Nat} (q : Nat) (h : 1 ≤ p) (hp : p ≤ L.length) :
    bitAt (flipAt L p) q = if q = p then !bitAt L p else bitAt L q := bitAt_setAt L _ q h hp

/-- After an insertion at `p`: positions below keep their bits, `p` holds the new one, those above hold what stood one
below. -/
theorem bitAt_insertAt (L : Bits) (b : Bool) {p : Nat} (q : Nat) (h : 1 ≤ p) (hp : p ≤ L.length + 1) :
    bitAt (insertAt L p b) q = if q < p then bitAt L q else if q = p then b else bitAt L (q - 1) := by
  obtain ⟨p, rfl⟩ := Nat.exists_eq_add_of_le' h
  cases q with
  | zero => simp
  | succ q =>
    have hl : (L.take p).length = p := by simp; omega
    simp only [insertAt, bitAt_succ, Nat.add_sub_cancel, List.getD_eq_getElem?_getD]
    rcases lt_trichotomy q p with hq | rfl | hq
    · rw [List.getElem?_append_left (by omega)]
      simp [hq]
    · rw [List.getElem?_append_right (by omega)]
      simp [hl]
    · rw [List.getElem?_append_right (by omega), hl, if_neg (by omega), if_neg (by omega)]
      obtain ⟨k, rfl⟩ := Nat.exists_eq_add_of_lt hq
      rw [show p + k + 1 - p = k + 1 by omega, List.getElem?_cons_succ, List.getElem?_drop]
      rfl

/-- After a removal at `p`: positions below keep their bits, those from `p` on hold what stood one above. -/
theorem bitAt_removeAt (L : Bits) {p : Nat} (q : Nat) (h : 1 ≤ p) (hp : p ≤ L.length) :
    bitAt (removeAt L p) q = if q < p then bitAt L q else bitAt L (q + 1) := by
  obtain ⟨p, rfl⟩ := Nat.exists_eq_add_of_le' h
  cases q with
  | zero => simp
  | succ q =>
    have hl : (L.take p).length = p := by simp; omega
    simp only [removeAt, bitAt_succ, Nat.add_sub_cancel, List.getD_eq_getElem?_getD]
    by_cases hq : q < p
    · rw [List.getElem?_append_left (by omega)]
      simp [hq]
    · rw [List.getElem?_append_right (by omega), hl, if_neg (by omega), List.getElem?_drop,
        show p + 1 + (q - p) = q + 1 by omega]

@[simp] theorem length_ofPort {w : Nat} (v : BitVec w) : (ofPort v).length = w := by simp [ofPort]

/-- Position `j` of the vector on a port of `w` bits is port bit `w − j`. -/
theorem bitAt_ofPort {w : Nat} (v : BitVec w) {j : Nat} (h : 1 ≤ j) (hj : j ≤ w) : bitAt (ofPort v) j = v.getLsbD (w - j) := by
  rw [bitAt_of_pos _ h, List.getD_eq_getElem?_getD]
  simp only [ofPort, List.getElem?_map]
  rw [List.getElem?_range' (by omega)]
  simp [show 1 + (j - 1) = j by omega]

theorem msbValue_append (L : Bits) (b : Bool) : msbValue (L ++ [b]) = 2 * msbValue L + b.toNat := by
  simp [msbValue, List.foldl_append]

theorem msbValue_lt (L : Bits) : msbValue L < 2 ^ L.length := by
  induction L using List.reverseRecOn with
  | nil => simp [msbValue]
  | append_singleton L b ih =>
    rw [msbValue_append, List.length_append, List.length_singleton, Nat.pow_succ]
    have := Bool.toNat_lt b
    omega

theorem lsbValue_lt (L : Bits) : lsbValue L < 2 ^ L.length := by
  induction L with
  | nil => simp [lsbValue]
  | cons b L ih =>
    rw [lsbValue, List.length_cons, Nat.pow_succ]
    have := Bool.toNat_lt b
    omega

@[simp] theorem xorAll_nil : xorAll [] = false := rfl
@[simp] theorem xorAll_cons (b : Bool) (L : Bits) : xorAll (b :: L) = (b ^^ xorAll L) := rfl
@[simp] theorem xorNat_nil : xorNat [] = 0 := rfl
@[simp] theorem xorNat_cons (n : Nat) (L : List Nat) : xorNat (n :: L) = n ^^^ xorNat L := rfl

end Sys2Proof
end

