-- ==== Sys2Proof/Laws/Layout.lean ====
section
/-! SUPPORT. The sizes of the layout tables. -/

namespace Sys2Proof.Layout

theorem M_eq (N : Nat) : M N = N + K N := rfl

@[simp] theorem length_P (N : Nat) : (P N).length = K N := by simp [P]

theorem mem_P (N j : Nat) : j ∈ P N ↔ ∃ i, i < K N ∧ 2 ^ i = j := by simp [P]

theorem mem_Q (N j : Nat) : j ∈ Q N ↔ (1 ≤ j ∧ j ≤ M N) ∧ j ∉ P N := by
  simp only [Q, List.mem_filter, List.mem_range'_1, Bool.not_eq_true', List.contains_eq_mem, decide_eq_false_iff_not]
  constructor <;> rintro ⟨h, h'⟩ <;> exact ⟨by omega, h'⟩

@[simp] theorem length_H (N : Nat) : (H N).length = K N := by simp [H]

@[simp] theorem length_mulVec (N : Nat) (v : Bits) : (mulVec N v).length = K N := by simp [mulVec]

end Sys2Proof.Layout
end

