-- ==== Sys2Proof/Laws/State.lean ====
section
/-! SUPPORT. What each update leaves in each field of the state: one lemma a field, true by unfolding, so that no proof unfolds
a record update. -/

namespace Sys2Proof.Machine

open Layout

@[simp] theorem State.accept_params (s : State) (r : Response s.params.N) : (s.accept r).params = s.params := rfl
@[simp] theorem State.accept_block (s : State) (r : Response s.params.N) :
    (s.accept r).block = s.block.clock { valid := true, rsp := r } := rfl
@[simp] theorem State.idleCycle_params (s : State) : s.idleCycle.params = s.params := rfl
@[simp] theorem State.idleCycle_block (s : State) :
    s.idleCycle.block = s.block.clock (Slot.bubble s.params.N s.block.cycleNo 1) := rfl
@[simp] theorem State.resetCycle_params (s : State) : s.resetCycle.params = s.params := rfl
@[simp] theorem State.resetCycle_block (s : State) : s.resetCycle.block = s.block.resetCycle := rfl

@[simp] theorem State.takeInputs_params (s : State) : s.takeInputs.params = s.params := rfl
@[simp] theorem State.takeInputs_pipe (s : State) : s.takeInputs.block.pipe = s.block.pipe := rfl
@[simp] theorem State.takeInputs_out (s : State) : s.takeInputs.block.out = s.block.out := rfl
@[simp] theorem State.takeInputs_stimulus (s : State) : s.takeInputs.block.stimulus = s.block.stimulus.tail := rfl
@[simp] theorem State.takeInputs_cycleNo (s : State) : s.takeInputs.block.cycleNo = s.block.cycleNo := rfl

@[simp] theorem State.drive_params (s : State) (i : Inputs s.params.N) : (s.drive i).params = s.params := rfl
@[simp] theorem State.drive_pipe (s : State) (i : Inputs s.params.N) : (s.drive i).block.pipe = s.block.pipe := rfl
@[simp] theorem State.drive_out (s : State) (i : Inputs s.params.N) : (s.drive i).block.out = s.block.out := rfl
@[simp] theorem State.drive_stimulus (s : State) (i : Inputs s.params.N) :
    (s.drive i).block.stimulus = i :: s.block.stimulus.tail := rfl
@[simp] theorem State.drive_cycleNo (s : State) (i : Inputs s.params.N) :
    (s.drive i).block.cycleNo = s.block.cycleNo := rfl

section
variable {N : Nat} (x : Slot N) (b : Block N)

@[simp] theorem Block.clock_pipe : (b.clock x).pipe = (x :: b.pipe).dropLast := rfl
@[simp] theorem Block.clock_out : (b.clock x).out = (b.pipe.getLastD x).present b.cycleNo := rfl
@[simp] theorem Block.clock_stimulus : (b.clock x).stimulus = b.stimulus := rfl
@[simp] theorem Block.clock_cycleNo : (b.clock x).cycleNo = b.cycleNo + 1 := rfl
@[simp] theorem Block.resetCycle_pipe :
    b.resetCycle.pipe = (List.range b.pipe.length).map fun s => Slot.bubble N b.cycleNo (s + 1) := rfl
@[simp] theorem Block.resetCycle_out :
    b.resetCycle.out = (b.pipe.getLastD (Slot.bubble N b.cycleNo 0)).present b.cycleNo := rfl
@[simp] theorem Block.resetCycle_stimulus : b.resetCycle.stimulus = b.stimulus := rfl
@[simp] theorem Block.resetCycle_cycleNo : b.resetCycle.cycleNo = b.cycleNo + 1 := rfl

end

@[simp] theorem Slot.bubble_valid (N cycle place : Nat) : (Slot.bubble N cycle place).valid = false := rfl
@[simp] theorem Slot.empty_valid (N : Nat) : (Slot.empty N).valid = false := rfl

@[simp] theorem State.elaborate_params (p : Params) : (State.elaborate p).params = p := rfl
@[simp] theorem State.elaborate_pipe (p : Params) :
    (State.elaborate p).block.pipe = List.replicate p.latency (Slot.empty p.N) := rfl
@[simp] theorem State.elaborate_out (p : Params) : (State.elaborate p).block.out = Slot.empty p.N := rfl
@[simp] theorem State.elaborate_stimulus (p : Params) : (State.elaborate p).block.stimulus = [] := rfl
@[simp] theorem State.elaborate_cycleNo (p : Params) : (State.elaborate p).block.cycleNo = 0 := rfl

end Sys2Proof.Machine
end

