-- ==== Sys2Proof/Laws/Ops.lean ====
section
/-! SUPPORT. One lemma for each shared operation: all that it can do. -/

namespace Sys2Proof.Machine

open Layout

section
variable {N : Nat}

/-- A valid slot is presented as it is; an invalid one as any fields with `rsp_valid` = 0. -/
theorem Slot.present_cases (c : Nat) (x : Slot N) :
    (x.valid = true ∧ x.present c = x) ∨ (x.valid = false ∧ x.present c = Slot.bubble N c 0) := by
  cases h : x.valid <;> simp [Slot.present, h]

/-- What is presented is the slot's response, where it has one. -/
@[simp] theorem Slot.present_response (c : Nat) (x : Slot N) : (x.present c).response = x.response := by
  obtain ⟨-, h⟩ | ⟨hv, h⟩ := x.present_cases c
  · rw [h]
  · simp [h, Slot.response, hv]

@[simp] theorem Slot.present_valid (c : Nat) (x : Slot N) : (x.present c).valid = x.valid := by
  obtain ⟨-, h⟩ | ⟨hv, h⟩ := x.present_cases c
  · rw [h]
  · rw [h, hv, Slot.bubble_valid]

/-- A cycle keeps the number of stages. -/
@[simp] theorem Block.length_clock (x : Slot N) (b : Block N) : (b.clock x).pipe.length = b.pipe.length := by simp

@[simp] theorem Block.length_resetCycle (b : Block N) : b.resetCycle.pipe.length = b.pipe.length := by simp

/-- A reset cycle leaves every valid bit 0. -/
theorem Block.resetCycle_drained (b : Block N) : b.resetCycle.Drained := by
  intro x hx
  simp only [Block.resetCycle_pipe, List.mem_map] at hx
  obtain ⟨s, -, rfl⟩ := hx
  rfl

/-- A cycle that a response enters does what R203 says of an accepted command. -/
theorem Block.clock_accepts (r : Response N) (b : Block N) : Accepts r b (b.clock { valid := true, rsp := r }) where
  combinational h := by simp [h, Slot.present]
  enters h := by simp [List.dropLast_cons_of_ne_nil h]
  presents x hx := by simp [List.getLastD_eq_getLast?, hx]
  stimulus := rfl
  cycleNo := rfl

end

theorem length_overwriteParity (N : Nat) (r c : Bits) : (overwriteParity N r c).length = c.length := by
  unfold overwriteParity
  induction List.range (K N) generalizing c with
  | nil => rfl
  | cons i is ih => rw [List.foldl_cons, ih, length_setAt]

theorem length_insertPlaceholders (N : Nat) (d : Bits) : (insertPlaceholders N d).length = d.length + K N := by
  have aux : ∀ (is : List Nat) (c : Bits),
      (is.foldl (fun c i => insertAt c (2 ^ i) false) c).length = c.length + is.length := by
    intro is
    induction is with
    | nil => simp
    | cons i is ih => intro c; rw [List.foldl_cons, ih, length_insertAt, List.length_cons]; omega
  rw [insertPlaceholders, aux, List.length_range]

/-- The correction step keeps the length. -/
@[simp] theorem length_correctBits (N : Nat) (c : Bits) : (correctBits N c).length = c.length := by
  unfold correctBits
  split <;> simp

/-- The status cases of R142, exclusive and complete. -/
theorem classify_cases (N s : Nat) :
    (s = 0 ∧ classify N s = .clean) ∨ (0 < s ∧ s < M N ∧ classify N s = .corrected) ∨
    (0 < s ∧ M N ≤ s ∧ classify N s = .uncorrectable) := by
  unfold classify
  by_cases h : s = 0
  · exact .inl ⟨h, if_pos h⟩
  · by_cases h' : s < M N
    · exact .inr (.inl ⟨by omega, h', by rw [if_neg h, if_pos h']⟩)
    · exact .inr (.inr ⟨by omega, by omega, by rw [if_neg h, if_neg h']⟩)

/-- No status has the reserved code. -/
theorem Status.code_ne_reserved (x : Status) : x.code ≠ 0b11#2 := by cases x <;> decide

end Sys2Proof.Machine
end

