-- ==== Sys2Proof/Laws/Codec.lean ====
section
/-! SUPPORT. The responses of the two commands, field by field, and the commands the ports present. -/

namespace Sys2Proof.Machine

open Layout

section
variable (N x d c : Nat)

@[simp] theorem respond_encode : respond N (.encode x d) = encodeResponse N (BitVec.ofNat N d) := rfl
@[simp] theorem respond_decode : respond N (.decode c) = decodeResponse N (BitVec.ofNat (M N) c) := rfl

end

/-- `F` on the two opcodes. -/
theorem F_encode (N : Nat) (w : BitVec (M N)) : F N false w = encodeResponse N (BitVec.ofNat N (w.toNat % 2 ^ N)) := rfl

theorem F_decode (N : Nat) (w : BitVec (M N)) : F N true w = decodeResponse N w := by
  simp [F, decodePorts]

/-- Every command that the ports can present fits its field widths. -/
theorem decodePorts_wellFormed (N : Nat) (op : Bool) (w : BitVec (M N)) : (decodePorts N op w).wellFormed N = true := by
  have hw := w.isLt
  cases op
  · simp only [decodePorts, Bool.false_eq_true, ↓reduceIte, Instr.wellFormed, Bool.and_eq_true, decide_eq_true_eq]
    refine ⟨?_, Nat.mod_lt _ (by positivity)⟩
    rw [Nat.div_lt_iff_lt_mul (by positivity), ← pow_add, Nat.add_comm]
    exact hw
  · simp [decodePorts, Instr.wellFormed, hw]

end Sys2Proof.Machine
end

