-- ==== Sys2Proof/Laws/HostFraming.lean ====
section
/-! SUPPORT. All that the host's encoder and decoder can do, said once. -/

namespace Sys2Proof.Machine

open Layout

/-- A wide character is refused; else a whole-byte `N` is framed, and any other `N` is the parameter's. -/
theorem hostEncode_cases (N : Nat) (T : List Nat) (other : NonByteFraming N) :
    ((∃ B, B ∈ T ∧ 256 ≤ B) ∧ hostEncode N T other = .error .wideCharacter) ∨
    ((∀ B, B ∈ T → B < 256) ∧ wholeBytes N ∧
      hostEncode N T other = .ok ((encodeCommands N T).flatMap fun i => codeText (respond N i))) ∨
    ((∀ B, B ∈ T → B < 256) ∧ ¬ wholeBytes N ∧ hostEncode N T other = other.encode T) := by
  by_cases hT : ∃ B, B ∈ T ∧ 256 ≤ B
  · exact .inl ⟨hT, if_pos (by simpa using hT)⟩
  · have small : ∀ B, B ∈ T → B < 256 := fun B hB => Nat.lt_of_not_le fun h => hT ⟨B, hB, h⟩
    have notAny : ¬ T.any (256 ≤ ·) = true := by simpa using small
    by_cases hN : wholeBytes N
    · exact .inr (.inl ⟨small, hN, by rw [hostEncode, if_neg notAny, if_pos hN]⟩)
    · exact .inr (.inr ⟨small, hN, by rw [hostEncode, if_neg notAny, if_neg hN]⟩)

/-- A malformed string is refused for every `N`; else a whole-byte `N` is framed, and any other `N` is the parameter's. -/
theorem hostDecode_cases (N : Nat) (E : List Char) (other : NonByteFraming N) :
    (E.length % M N ≠ 0 ∧ hostDecode N E other = .error .notWholeCodewords) ∨
    (E.length % M N = 0 ∧ (∃ x, x ∈ E ∧ x ≠ '0' ∧ x ≠ '1') ∧ hostDecode N E other = .error .notBinary) ∨
    (E.length % M N = 0 ∧ (∀ x, x ∈ E → x = '0' ∨ x = '1') ∧ wholeBytes N ∧
      hostDecode N E other = .ok (collectText ((decodeCommands N E).map (respond N)))) ∨
    (E.length % M N = 0 ∧ (∀ x, x ∈ E → x = '0' ∨ x = '1') ∧ ¬ wholeBytes N ∧ hostDecode N E other = other.decode E) := by
  by_cases hL : E.length % M N = 0
  · have notShort : ¬ E.length % M N ≠ 0 := not_not_intro hL
    by_cases hE : ∃ x, x ∈ E ∧ x ≠ '0' ∧ x ≠ '1'
    · exact .inr (.inl ⟨hL, hE, by rw [hostDecode, if_neg notShort, if_pos (by simpa using hE)]⟩)
    · have binary : ∀ x, x ∈ E → x = '0' ∨ x = '1' := fun x hx =>
        or_iff_not_imp_left.mpr fun h0 => by_contra fun h1 => hE ⟨x, hx, h0, h1⟩
      have notAny : ¬ E.any (fun x => x ≠ '0' && x ≠ '1') = true := by simpa using hE
      by_cases hN : wholeBytes N
      · exact .inr (.inr (.inl ⟨hL, binary, hN, by rw [hostDecode, if_neg notShort, if_neg notAny, if_pos hN]⟩))
      · exact .inr (.inr (.inr ⟨hL, binary, hN, by rw [hostDecode, if_neg notShort, if_neg notAny, if_neg hN]⟩))
  · exact .inl ⟨hL, if_pos hL⟩

end Sys2Proof.Machine
end

