-- ==== Sys2Proof/Laws/PerInstr.lean ====
section
/-! SUPPORT. Statements made for each command as syntax, one lemma a constructor. -/

namespace Sys2Proof.Laws.WordFits

open Layout

/-- The word of a command that fits its fields has no bit above bit `M` (R71, R78). -/
def Statement (i : Instr) : Prop := ∀ N, i.wellFormed N = true → Sys2Proof.encode N i < 2 ^ (M N + 1)

theorem encode (x d : Nat) : Statement (.encode x d) := by
  intro N h
  simp only [Instr.wellFormed, Bool.and_eq_true, decide_eq_true_eq] at h
  obtain ⟨hx, hd⟩ := h
  have hm : 2 ^ M N = 2 ^ K N * 2 ^ N := by rw [M, Nat.add_comm, pow_add]
  have : (x + 1) * 2 ^ N ≤ 2 ^ K N * 2 ^ N := Nat.mul_le_mul_right _ hx
  rw [Nat.add_mul] at this
  simp only [Sys2Proof.encode, pow_succ]
  omega

theorem decode (c : Nat) : Statement (.decode c) := by
  intro N h
  simp only [Instr.wellFormed, decide_eq_true_eq] at h
  simp only [Sys2Proof.encode, pow_succ]
  omega

end Sys2Proof.Laws.WordFits
end

