-- ==== Sys2Proof/Laws/Step.lean ====
section
/-! SUPPORT. What a step can do, said once, and executions. -/

namespace Sys2Proof.Machine

open Layout

/-- Each command enters its response. -/
theorem exec_eq (i : Instr) (s : State) : exec i s = .next (s.accept (respond s.params.N i)) := by
  cases i <;> rfl

/-- The block after one cycle. -/
def nextBlock {N : Nat} (b : Block N) : Block N :=
  if b.inputs.rst then Block.resetCycle { b with stimulus := b.stimulus.tail }
  else if b.inputs.cmdValid then
    Block.clock { valid := true, rsp := F N b.inputs.cmdOp b.inputs.cmdWord } { b with stimulus := b.stimulus.tail }
  else Block.clock (Slot.bubble N b.cycleNo 1) { b with stimulus := b.stimulus.tail }

/-- Every step answers a next state, which is that block in the same instance. -/
theorem step_eq (p : Params) (b : Block p.N) : step ⟨p, b⟩ = .next ⟨p, nextBlock b⟩ := by
  unfold step nextBlock
  dsimp only
  split
  · rfl
  · split
    · rw [exec_eq]; rfl
    · rfl

/-- The inversion of `step_eq`. -/
theorem step_next {p : Params} {b b' : Block p.N} (h : step ⟨p, b⟩ = .next ⟨p, b'⟩) : b' = nextBlock b := by
  rw [step_eq] at h
  simp only [Host.Outcome.next.injEq, State.mk.injEq, heq_eq_eq, true_and] at h
  exact h.symm

/-- What one cycle does, by its inputs. -/
theorem nextBlock_cases {N : Nat} (b : Block N) :
    (b.inputs.rst = true ∧ nextBlock b = Block.resetCycle { b with stimulus := b.stimulus.tail }) ∨
    (b.inputs.accepts = true ∧ nextBlock b
      = Block.clock { valid := true, rsp := F N b.inputs.cmdOp b.inputs.cmdWord } { b with stimulus := b.stimulus.tail }) ∨
    (b.inputs.rst = false ∧ b.inputs.cmdValid = false ∧
      nextBlock b = Block.clock (Slot.bubble N b.cycleNo 1) { b with stimulus := b.stimulus.tail }) := by
  unfold nextBlock Inputs.accepts
  cases b.inputs.rst <;> cases b.inputs.cmdValid <;> simp

@[simp] theorem nextBlock_stimulus {N : Nat} (b : Block N) : (nextBlock b).stimulus = b.stimulus.tail := by
  obtain ⟨-, h⟩ | ⟨-, h⟩ | ⟨-, -, h⟩ := nextBlock_cases b <;> simp [h]

@[simp] theorem nextBlock_cycleNo {N : Nat} (b : Block N) : (nextBlock b).cycleNo = b.cycleNo + 1 := by
  obtain ⟨-, h⟩ | ⟨-, h⟩ | ⟨-, -, h⟩ := nextBlock_cases b <;> simp [h]

@[simp] theorem length_nextBlock {N : Nat} (b : Block N) : (nextBlock b).pipe.length = b.pipe.length := by
  obtain ⟨-, h⟩ | ⟨-, h⟩ | ⟨-, -, h⟩ := nextBlock_cases b <;> rw [h] <;> simp

/-- The blocks of the execution that starts in `b`. -/
def runFrom {N : Nat} (b : Block N) : Nat → Block N
  | 0 => b
  | t + 1 => nextBlock (runFrom b t)

/-- Every block starts an execution. -/
theorem runFrom_execution (p : Params) (b : Block p.N) : Execution p (runFrom b) := fun t => step_eq p (runFrom b t)

/-- It is the only one. -/
theorem Execution.eq_runFrom {p : Params} {f : Nat → Block p.N} (h : Execution p f) : f = runFrom (f 0) := by
  funext t
  induction t with
  | zero => rfl
  | succ t ih => rw [step_next (h t), ih]; rfl

end Sys2Proof.Machine
end

