-- ==== Sys2Proof/Tests/Slice0.lean ====
section
/-! SUPPORT. Tests against the spec's own words and vectors (30_encoding.md R81, 95_test_vectors.md), one step each, and for
every statement with hypotheses a witness that meets them. -/

namespace Sys2Proof.Tests

open Sys2Proof.Machine Sys2Proof.Layout

/-! Well-formedness refuses a field that does not fit: one ill-formed command a check (R71). -/

theorem test_wellFormed_refuses_wide_ignored_field : (Instr.encode 16 0x41).wellFormed 8 = false := by decide
theorem test_wellFormed_refuses_wide_data : (Instr.encode 0 256).wellFormed 8 = false := by decide
theorem test_wellFormed_refuses_wide_codeword : (Instr.decode 4096).wellFormed 8 = false := by decide
theorem test_wellFormed_accepts_widest : (Instr.encode 15 255).wellFormed 8 = true ∧ (Instr.decode 4095).wellFormed 8 = true := by
  decide

/-! Decoding, the words written out from R71's field table: `0 xxxx dddddddd` and `1 cccccccccccc` (R81). -/

theorem test_decode_encode_word : decode 8 0b0_0101_01000001 = .ok (.encode 0b0101 0b01000001) := by rfl
theorem test_decode_decode_word : decode 8 0b1_101010010001 = .ok (.decode 0b101010010001) := by rfl
theorem test_decode_smallest_instance : decode 1 0b0_10_1 = .ok (.encode 0b10 1) ∧ decode 1 0b1_011 = .ok (.decode 0b011) := by
  exact ⟨rfl, rfl⟩
theorem test_decode_refuses_fourteen_bits : decode 8 0b1_0_0000_00000000 = .error .widerThanCommand := by rfl
theorem test_decodeTableWord_rows :
    decodeTableWord 16 0x0041 = some (.encode 0 0x41) ∧ decodeTableWord 16 0x1891 = some (.decode 0x891) := by decide
theorem test_encode_words : encode 8 (.encode 0b0101 0x41) = 0b0_0101_01000001 ∧ encode 8 (.decode 0xA91) = 0x1A91 := by decide

/-! One step of each command. `drained N L` is an instance with an empty pipeline. The expected fields are L2.4's and L2.2's. -/

/-- A drained block of the instance `N`, `L`, with inputs to come. -/
def drained (N L : Nat) (ins : List (Inputs N)) : Block N := { (State.elaborate ⟨N, L⟩).block with stimulus := ins }

/-- The outcome is a next state in whose block `P` holds. -/
def blockSatisfies (N L : Nat) (o : Host.Outcome State Fault Refusal) (P : Block N → Prop) : Prop :=
  ∃ b, o = .next ⟨⟨N, L⟩, b⟩ ∧ P b

/-- R126, with ignored bits set (R125). -/
theorem test_encode_A : blockSatisfies 8 0 (step ⟨⟨8, 0⟩, drained 8 0 [Inputs.present 8 false 0xF41]⟩)
    (fun b => b.out = ⟨true, ⟨false, 0x891, 0x41, 0b00, 0⟩⟩) := ⟨_, rfl, by decide⟩

/-- L2.2, N = 16: `0x4142` gives `0x1902A2`; with one stage it is in flight after the step. -/
theorem test_encode_N16_in_flight : blockSatisfies 16 1 (step ⟨⟨16, 1⟩, drained 16 1 [Inputs.present 16 false 0x4142]⟩)
    (fun b => b.pipe = [⟨true, ⟨false, 0x1902A2, 0x4142, 0b00, 0⟩⟩] ∧ b.out.valid = false) := ⟨_, rfl, by decide⟩

/-- L2.4: positions 3 and 5 inverted, miscorrected at 6. -/
theorem test_decode_miscorrection : blockSatisfies 8 0 (step ⟨⟨8, 0⟩, drained 8 0 [Inputs.present 8 true 0xA11]⟩)
    (fun b => b.out = ⟨true, ⟨true, 0xA51, 0xA1, 0b01, 6⟩⟩) := ⟨_, rfl, by decide⟩

/-- L2.4: position 12 = M inverted, not corrected (R142(iii)). -/
theorem test_decode_boundary : blockSatisfies 8 0 (step ⟨⟨8, 0⟩, drained 8 0 [Inputs.present 8 true 0x890]⟩)
    (fun b => b.out = ⟨true, ⟨true, 0x890, 0x40, 0b10, 12⟩⟩) := ⟨_, rfl, by decide⟩

/-- L3.5, cycle 3: `rst` = 1 with a command on the port and two responses in flight. The older one is presented, both stages
are cleared, the command is not accepted. -/
theorem test_reset_in_flight : blockSatisfies 8 2
    (step ⟨⟨8, 2⟩, { (drained 8 2 [{ Inputs.present 8 true 0x890 with rst := true }]) with
      pipe := [⟨true, F 8 true 0xA91⟩, ⟨true, F 8 false 0x41⟩] }⟩)
    (fun b => b.out = ⟨true, ⟨false, 0x891, 0x41, 0b00, 0⟩⟩ ∧ b.pipe.map Slot.valid = [false, false]) :=
  ⟨_, rfl, by decide⟩

/-- R202: with `cmd_valid` = 0 nothing is accepted, whatever the other command ports hold. -/
theorem test_idle_cycle : blockSatisfies 8 0
    (step ⟨⟨8, 0⟩, drained 8 0 [{ Inputs.present 8 true 0x890 with cmdValid := false }]⟩)
    (fun b => b.out.valid = false) := ⟨_, rfl, by decide⟩

/-- A command word placed for the state after reset is what its first step runs (R81's third row). -/
theorem test_withFetchWord : blockSatisfies 8 0 (step (State.reset.withFetchWord 16 0x1A91))
    (fun b => b.out = ⟨true, ⟨true, 0x891, 0x41, 0b01, 3⟩⟩) := ⟨_, rfl, by decide⟩

/-! Layout, host framing and assembler (L2.1, L2.6, R79). -/

theorem test_layout_table : [1, 2, 4, 5, 8, 11, 12, 16, 27, 64, 121, 256].map K = [2, 3, 3, 4, 4, 4, 5, 5, 6, 7, 8, 9] := by decide
theorem test_host_encode_Hi : hostEncode 8 [0x48, 0x69] = .ok "000110011000010111001001".toList := by decide
theorem test_host_decode_Hi_corrected :
    hostDecode 8 "000110011000011111001001".toList = .ok ([0x48, 0x69], [(0b00, 0), (0b01, 3)]) := by decide
theorem test_host_short_group : hostEncode 16 [0x43] = .ok "110100010000010000011".toList := by decide
/-- R54 with a framing that takes every string at `N` = 12 (`M` = 17): a malformed one is refused before it is asked. -/
theorem test_host_refuses_malformed_for_every_N :
    hostDecode 12 ['0'] { encode := fun _ => .ok [], decode := fun _ => .ok ([], []) } = .error .notWholeCodewords ∧
    hostDecode 12 (List.replicate 17 '2') { encode := fun _ => .ok [], decode := fun _ => .ok ([], []) } = .error .notBinary :=
  ⟨by decide, by decide⟩
theorem test_assemble_program : assemble 8 ["ENCODE 0x41          ; 'A'".toList, "DECODE 100010010001".toList, "; end".toList]
    = .ok [.encode 0 0x41, .decode 0x891] := by rfl
theorem test_assemble_refuses_wide_hex : assembleLine 8 "ENCODE 0x100".toList = .error .badOperand := by rfl

/-! Witnesses: for each statement with hypotheses, values that meet them together, at the ends of each clause's range. -/

theorem witness_ParityCountIsLeast : 1 ≤ 1 ∧ 1 < K 1 ∧ 3 < K 8 := by decide

theorem witness_SourceLoopComputesParityCount : 1 ≤ 1 ∧ 1 ≤ 4 := by decide

theorem witness_ParityAndDataPositions : 1 ≤ 1 ∧ 0 < K 1 ∧ 1 < K 1 ∧ 3 ∈ Q 1 ∧ [true].length = 1 ∧ 12 ∈ Q 8 := by decide

theorem witness_CodewordLengthFacts : (1 ≤ 8 ∧ 3 < K 8) ∧ (1 ≤ 4 ∧ fullLength 4 ∧ 7 ≤ 2 ^ K 4 - 1) ∧ ¬ fullLength 8 ∧
    247 ∈ [1, 4, 11, 26, 57, 120, 247] := by decide

theorem witness_ParityCheckMatrix : 1 ≤ 8 ∧ 3 < K 8 ∧ 1 ≤ 12 ∧ 12 ≤ M 8 ∧ 1 ≠ 12 ∧ [true, false, true] ∈ H 1 := by decide

theorem witness_ProductIsXorOfPositions : [true, false, true].length = M 1 ∧ 1 < K 1 := by decide

theorem witness_ParityCountMonotone : (1 ≤ 4 ∧ fullLength 4) ∧ (1 ≤ 5 ∧ ¬ fullLength 5) ∧ 4 ≤ 5 := by decide

theorem witness_PortBitOrders : (1 ≤ 1 ∧ 12 ≤ M 8) ∧ 8 ≤ 8 ∧ [true, false].length = 2 ∧ [true, false, true, false].length = K 8 ∧
    3 < K 8 := by decide

theorem witness_DecodeEncodeCommand :
    (Instr.encode 15 255).wellFormed 8 = true ∧ (Instr.encode 0 0).wellFormed 8 = true ∧
    (Instr.decode 4095).wellFormed 8 = true := by decide

theorem witness_EveryCommandWordIsLegal :
    0 < 2 ^ (M 8 + 1) ∧ 8191 < 2 ^ (M 8 + 1) ∧ 2 ^ (M 8 + 1) ≤ 8192 ∧
    (Instr.encode 15 0x41).wellFormed 8 = true ∧ encode 8 (.encode 15 0x41) = 0x0F41 := by decide

theorem witness_OpcodeRowsPartitionWords :
    decode 8 0x0FFF = .ok (.encode 15 255) ∧ decode 8 0x1000 = .ok (.decode 0) ∧
    OpcodeRow.mk "DECODE" (2 ^ M 8) (2 ^ M 8) ∈ opcodeTable 8 := ⟨rfl, rfl, by decide⟩

theorem witness_CommandFieldPlacement :
    ((Instr.encode 9 0x41).wellFormed 8 = true ∧ 3 < K 8 ∧ 1 ≤ 8 ∧ 8 ≤ 8) ∧
    ((Instr.decode 0xA91).wellFormed 8 = true ∧ 1 ≤ 12 ∧ 12 ≤ M 8) := by decide

theorem witness_EncodeIgnoresUpperBits :
    (∀ b, b < 8 → (0x041#12 : BitVec (M 8)).getLsbD b = (0xF41#12 : BitVec (M 8)).getLsbD b) ∧ 1 ≤ 8 ∧ 8 ≤ 8 := by decide

theorem witness_AssemblerBinaryOperands :
    [true, false] ≠ [] ∧ ['2'].take 2 ≠ ['0', 'x'] ∧ (∀ x, x ∈ ['2'] → isBlank x = false ∧ x ≠ ';') ∧
    ∃ x, x ∈ ['2'] ∧ x ≠ '0' ∧ x ≠ '1' := ⟨by decide, by decide, by simp [isBlank], '2', by decide⟩

theorem witness_AssemblerHexOperands : ([4, 1] : List (Fin 16)) ≠ [] := by decide

theorem witness_PlaceholderInsertion : [false, true, false, false, false, false, false, true].length = 8 ∧ 3 < K 8 ∧ 4 ≤ K 8 ∧ 7 < 8 := by
  decide

theorem witness_ParityComputation :
    [false, true, false, false, false, false, false, true].length = 8 ∧ 3 < K 8 ∧ [3, 1, 0, 2].Perm (List.range (K 8)) := by decide

theorem witness_EncodeResponseFields : 0 < 8 ∧ 7 < 8 ∧ 0 < K 8 ∧ 3 < K 8 := by decide

theorem witness_EncodeCodewordProperties :
    0 < 8 ∧ 7 < 8 ∧ 3 < K 8 ∧ (encodeResponse 8 0x41#8).code = (encodeResponse 8 (0x40#8 ^^^ 0x01#8)).code := by decide

theorem witness_SyndromeIsXorOfPositions : 0 < K 8 ∧ 3 < K 8 := by decide

/-- `s` = 0, 1, M − 1, M and 2^K − 1, with `N = 8`; and `s` = 0, M − 1 and M with the smallest `N`. -/
theorem witness_CorrectionPolicy :
    (1 ≤ 8 ∧ 1 ≤ 1) ∧
    (xorNat (onePositions (codeBits (N := 1) 0b111#3)) = 0 ∧
      (xorNat (onePositions (codeBits (N := 1) 0b010#3)) = 2 ∧ 2 < M 1) ∧
      (xorNat (onePositions (codeBits (N := 1) 0b001#3)) = 3 ∧ M 1 ≤ 3)) ∧
    xorNat (onePositions (codeBits (N := 8) 0x891#12)) = 0 ∧
    (xorNat (onePositions (codeBits (N := 8) 0x091#12)) = 1 ∧ 1 < M 8) ∧
    (xorNat (onePositions (codeBits (N := 8) 0x893#12)) = 11 ∧ 11 < M 8) ∧
    (xorNat (onePositions (codeBits (N := 8) 0x890#12)) = 12 ∧ M 8 ≤ 12) ∧
    (xorNat (onePositions (codeBits (N := 8) 0xA90#12)) = 15 ∧ M 8 ≤ 15) ∧ 1 ≤ 12 ∧ 12 ≤ M 8 ∧ 7 < 8 := by decide

theorem witness_StrippingKeepsDataPositions : [true, false, true].length = M 1 ∧ 0 < K 1 ∧ 1 < K 1 := by decide

theorem witness_SingleErrorCorrection : 1 ≤ 8 ∧ (1 ≤ 1 ∧ 1 ≤ M 8 - 1) ∧ (1 ≤ 11 ∧ 11 ≤ M 8 - 1) ∧ (12 ≤ M 8 ∧ 12 = M 8) := by decide

theorem witness_MultipleErrors :
    ([3, 5, 12].Nodup ∧ ∀ p, p ∈ [3, 5, 12] → 1 ≤ p ∧ p ≤ M 8) ∧
    (1 ≤ 3 ∧ 3 ≤ M 8 ∧ 1 ≤ 5 ∧ 5 ≤ M 8 ∧ 3 ≠ 5 ∧ 3 ^^^ 5 < M 8) ∧
    (1 ≤ 4 ∧ 4 ≤ M 8 ∧ 1 ≤ 8 ∧ 8 ≤ M 8 ∧ 4 ≠ 8 ∧ M 8 ≤ 4 ^^^ 8) ∧ 1 ≤ 1 := by decide

theorem witness_ParityBitErrors : 0 < K 8 ∧ 3 < K 8 := by decide

theorem witness_DecodeCornerCases : 0b100#3 ∈ [0b100#3, 0b010#3, 0b011#3, 0b101#3] ∧ 1 ≤ 6 := by decide

theorem witness_StepRunsPresentedCommand :
    (drained 8 0 [Inputs.present 8 true 0xA91]).stimulus = { rst := false, cmdValid := true, cmdOp := true, cmdWord := 0xA91#12 } :: [] ∧
    decode 8 (true.toNat * 2 ^ M 8 + (0xA91#12 : BitVec (M 8)).toNat) = .ok (.decode 0xA91) ∧
    decode 8 (0x1A91 % 2 ^ 16) = .ok (.decode 0xA91) := ⟨rfl, rfl, rfl⟩

theorem witness_AcceptedIffValidAndNotReset :
    (drained 8 1 [{ Inputs.present 8 true 0 with rst := true }]).stimulus = { Inputs.present 8 true 0 with rst := true } :: [] ∧
    (drained 8 1 [Inputs.quiet 8]).stimulus = Inputs.quiet 8 :: [] ∧ (Inputs.quiet 8).cmdValid = false ∧
    (drained 8 0 [Inputs.present 8 true 0]).stimulus = Inputs.present 8 true 0 :: [] ∧
    (Inputs.present 8 true 0).rst = false ∧ (Inputs.present 8 true 0).cmdValid = true ∧
    (drained 8 0 []).pipe = [] ∧ (drained 8 1 []).pipe = [Slot.empty 8] := by decide

theorem witness_ResetCycleClearsPipeline :
    (drained 8 2 [{ Inputs.quiet 8 with rst := true }]).stimulus = { Inputs.quiet 8 with rst := true } :: [] ∧
    (drained 8 2 []).pipe.getLast? = some (Slot.empty 8) ∧ (drained 8 0 []).pipe = [] := by decide

theorem witness_InvalidStageDataUnobservable :
    Block.Alike (drained 8 1 []) { (drained 8 1 []) with pipe := [⟨false, F 8 true 0xA91⟩] } ∧
    step ⟨⟨8, 1⟩, drained 8 1 []⟩ = .next ⟨⟨8, 1⟩, nextBlock (drained 8 1 [])⟩ ∧
    step ⟨⟨8, 1⟩, { (drained 8 1 []) with pipe := [⟨false, F 8 true 0xA91⟩] }⟩
      = .next ⟨⟨8, 1⟩, nextBlock { (drained 8 1 []) with pipe := [⟨false, F 8 true 0xA91⟩] }⟩ := by
  refine ⟨⟨.cons ⟨rfl, fun h => absurd h (by decide)⟩ .nil, rfl, rfl⟩, step_eq _ _, step_eq _ _⟩

/-- A command in cycle 0 and a reset in cycle 2, with `LATENCY` 2: there is an execution from this block. -/
theorem witness_ResponseTiming :
    ∃ f : Nat → Block 8, Execution ⟨8, 2⟩ f ∧ (f 0).pipe.length = 2 ∧ (f 0).Drained ∧
      (f 0).stimulus = [Inputs.present 8 true 0xA91, Inputs.quiet 8, { Inputs.quiet 8 with rst := true }] :=
  ⟨runFrom (drained 8 2 _), runFrom_execution _ _, rfl, by unfold Block.Drained; decide, rfl⟩

theorem witness_ResponsesAreMapF :
    (∃ f : Nat → Block 8, Execution ⟨8, 2⟩ f ∧ (f 0).pipe.length = 2 ∧ (f 0).Drained ∧
      (f 0).stimulus = [Inputs.present 8 true 0xA91, Inputs.present 8 false 0x41]) ∧
    [Inputs.present 8 true 0xA91, Inputs.present 8 false 0x41].length + 2 ≤ 4 ∧
    ∀ i, i ∈ [Inputs.present 8 true 0xA91, Inputs.present 8 false 0x41] → i.rst = false :=
  ⟨⟨runFrom (drained 8 2 _), runFrom_execution _ _, rfl, by unfold Block.Drained; decide, rfl⟩, by decide, by decide⟩

/-- A stage that powers up with its valid bit 1. -/
theorem witness_ResetAfterPowerUp :
    ∃ f : Nat → Block 8, Execution ⟨8, 1⟩ f ∧ (f 0).pipe.length = 1 ∧
      (f 0).stimulus = { Inputs.quiet 8 with rst := true } :: [Inputs.present 8 true 0xA91] ∧
      ({ Inputs.quiet 8 with rst := true } : Inputs 8).rst = true :=
  ⟨runFrom { (drained 8 1 _) with pipe := [⟨true, F 8 false 0⟩] }, runFrom_execution _ _, rfl, rfl, rfl⟩

theorem witness_ResponseIndependentOfHistory :
    (∃ f : Nat → Block 8, Execution ⟨8, 0⟩ f ∧ (f 0).pipe.length = 0 ∧ (f 0).Drained ∧
      (f 0).stimulus = [Inputs.present 8 true 0xA91]) ∧
    (∃ g : Nat → Block 8, Execution ⟨8, 2⟩ g ∧ (g 0).pipe.length = 2 ∧ (g 0).Drained ∧
      (g 0).stimulus = [Inputs.present 8 false 0x41, Inputs.present 8 true 0xA91]) ∧
    inputsAt [Inputs.present 8 true 0xA91] 0 = inputsAt [Inputs.present 8 false 0x41, Inputs.present 8 true 0xA91] 1 ∧
    (inputsAt [Inputs.present 8 true 0xA91] 0).accepts = true ∧
    discarded 0 [Inputs.present 8 true 0xA91] 0 = false ∧
    discarded 2 [Inputs.present 8 false 0x41, Inputs.present 8 true 0xA91] 1 = false :=
  ⟨⟨runFrom (drained 8 0 _), runFrom_execution _ _, rfl, by unfold Block.Drained; decide, rfl⟩,
    ⟨runFrom (drained 8 2 _), runFrom_execution _ _, rfl, by unfold Block.Drained; decide, rfl⟩,
    by decide, by decide, by decide, by decide⟩

/-- A response in flight in an instance of latency 1. -/
theorem witness_StepKeepsInvariant :
    (State.mk ⟨8, 1⟩ { (drained 8 1 []) with pipe := [⟨true, F 8 true 0xA91⟩] }).WF ∧
    (State.mk ⟨8, 1⟩ { (drained 8 1 []) with pipe := [⟨true, F 8 true 0xA91⟩] }).Genuine ∧
    ∃ s', step ⟨⟨8, 1⟩, { (drained 8 1 []) with pipe := [⟨true, F 8 true 0xA91⟩] }⟩ = .next s' := by
  refine ⟨by decide, ⟨?_, fun h => absurd h (by decide)⟩, _, step_eq _ _⟩
  intro x hx _
  rw [List.mem_singleton.mp hx]
  exact ⟨true, 0xA91, rfl⟩

theorem witness_ResetHasInvariant : (⟨1, 0⟩ : Params).wf ∧ (⟨8, 3⟩ : Params).wf := by decide

/-- The hypotheses are met, all together, by a drained instance of `N = 8` without stages that is presented the command `op`,
`word`, for each command of `witness_PresentedStatusCodes_cases`. -/
theorem witness_PresentedStatusCodes (op : Bool) (word : BitVec (M 8)) :
    (State.mk ⟨8, 0⟩ (drained 8 0 [Inputs.present 8 op word])).WF ∧
    (State.mk ⟨8, 0⟩ (drained 8 0 [Inputs.present 8 op word])).Genuine ∧
    step ⟨⟨8, 0⟩, drained 8 0 [Inputs.present 8 op word]⟩
      = .next ⟨⟨8, 0⟩, nextBlock (drained 8 0 [Inputs.present 8 op word])⟩ ∧
    (nextBlock (drained 8 0 [Inputs.present 8 op word])).out.response = some (F 8 op word) :=
  ⟨⟨Nat.le_add_left 1 7, rfl⟩, ⟨fun _ hx => absurd hx List.not_mem_nil, fun h => absurd h Bool.false_ne_true⟩,
    step_eq _ _, rfl⟩

/-- ENCODE, and DECODE with `s` = 0, 1, M − 1, M and 2^K − 1: one response for each end of each clause. -/
theorem witness_PresentedStatusCodes_cases :
    (F 8 false 0x41).op = false ∧ (F 8 true 0x891).syndrome.toNat = 0 ∧
    ((F 8 true 0x091).syndrome.toNat = 1 ∧ 1 < M 8) ∧ ((F 8 true 0x893).syndrome.toNat = 11 ∧ 11 + 1 = M 8) ∧
    ((F 8 true 0x890).syndrome.toNat = 12 ∧ 12 = M 8) ∧ ((F 8 true 0xA90).syndrome.toNat = 15 ∧ 15 + 1 = 2 ^ K 8) := by
  decide

/-- One of those states written out: position M inverted, presented as UNCORRECTABLE. -/
theorem witness_PresentedStatusCodes_boundary :
    (State.mk ⟨8, 0⟩ (drained 8 0 [Inputs.present 8 true 0x890])).WF ∧
    (State.mk ⟨8, 0⟩ (drained 8 0 [Inputs.present 8 true 0x890])).Genuine ∧
    (nextBlock (drained 8 0 [Inputs.present 8 true 0x890])).out.response = some ⟨true, 0x890, 0x40, 0b10, 12⟩ :=
  ⟨(witness_PresentedStatusCodes _ _).1, (witness_PresentedStatusCodes _ _).2.1, by decide⟩

theorem witness_HostByteOrder : (∀ B, B ∈ [0, 0x41, 255] → B < 256) ∧ 255 ∈ [0, 0x41, 255] := by decide

/-- For a whole-byte `N` and for one that is none; 9 is one past a multiple of 8 and 15 one before the next. -/
theorem witness_HostRefusals :
    (['0'].length % M 8 ≠ 0 ∧ ['0'].length % M 12 ≠ 0) ∧ (∃ x, x ∈ ['2'] ∧ x ≠ '0' ∧ x ≠ '1') ∧ (∃ B, B ∈ [256] ∧ 256 ≤ B) ∧
    (9 % 8 ≠ 0 ∧ 12 % 8 ≠ 0 ∧ 15 % 8 ≠ 0) ∧ (∀ B, B ∈ [0, 255] → B < 256) ∧
    ((List.replicate 17 '1').length % M 12 = 0 ∧ ∀ x, x ∈ List.replicate 17 '1' → x = '0' ∨ x = '1') :=
  ⟨by decide, ⟨'2', by decide⟩, ⟨256, by decide⟩, by decide, by decide, by decide,
    fun _ hx => .inr (List.eq_of_mem_replicate hx)⟩

theorem witness_HostEncodedLength : wholeBytes 16 ∧ ∀ B, B ∈ [0x41, 0x42, 255] → B < 256 := by decide

theorem witness_HostShortFinalGroup :
    wholeBytes 16 ∧ (∀ B, B ∈ [0x41, 0x42, 0x43] → B < 256) ∧ [0x41, 0x42, 0x43].length % (16 / 8) ≠ 0 := by decide

/-- `N = 8`, "Hi": character 0 is position 1 of block 1, character 11 position M − 1 + 1 = M, character 22 position M − 1. -/
theorem witness_HostRoundTrip :
    wholeBytes 8 ∧ (∀ B, B ∈ [0x48, 0x69] → B < 256) ∧ 8 * [0x48, 0x69].length % 8 = 0 ∧
    hostEncode 8 [0x48, 0x69] = .ok "000110011000010111001001".toList ∧
    (0 < 24 ∧ 0 % M 8 + 1 ≤ M 8 - 1) ∧ (22 < 24 ∧ 22 % M 8 + 1 ≤ M 8 - 1) ∧ 11 % M 8 + 1 = M 8 := by decide

end Sys2Proof.Tests
end

section
/-! SUPPORT. The invariant of an instance (O42, O43, O44): what every slot holds after reset and after each step. -/

namespace Sys2Proof.Machine

section
variable {N : Nat} {x : Slot N} {b : Block N}

theorem Slot.genuine_of_invalid (h : x.valid = false) : x.Genuine := fun hv => by simp [h] at hv

theorem Slot.genuine_answer (op : Bool) (word : BitVec (Layout.M N)) :
    (Slot.mk true (F N op word)).Genuine := fun _ => ⟨op, word, rfl⟩

theorem Slot.Genuine.present (h : x.Genuine) (c : Nat) : (x.present c).Genuine := by
  obtain ⟨-, hp⟩ | ⟨-, hp⟩ := x.present_cases c
  · rwa [hp]
  · exact hp ▸ Slot.genuine_of_invalid rfl

/-- `State.Genuine`, of the block alone. -/
def Block.Genuine (b : Block N) : Prop := (∀ x ∈ b.pipe, x.Genuine) ∧ b.out.Genuine

theorem State.genuine_iff (s : State) : s.Genuine ↔ s.block.Genuine := Iff.rfl

/-- Whatever a cycle presents or keeps in flight is what entered or was in flight before. -/
theorem Block.genuine_clock (hx : x.Genuine) (hb : ∀ y ∈ b.pipe, y.Genuine) : (b.clock x).Genuine := by
  have hall : ∀ y ∈ x :: b.pipe, y.Genuine := List.forall_mem_cons.mpr ⟨hx, hb⟩
  exact ⟨fun y hy => hall y (List.mem_of_mem_dropLast hy), (hall _ List.getLastD_mem_cons).present _⟩

theorem Block.genuine_resetCycle (hb : ∀ y ∈ b.pipe, y.Genuine) : b.resetCycle.Genuine := by
  have hall : ∀ y ∈ Slot.bubble N b.cycleNo 0 :: b.pipe, y.Genuine :=
    List.forall_mem_cons.mpr ⟨Slot.genuine_of_invalid rfl, hb⟩
  exact ⟨fun y hy => Slot.genuine_of_invalid (b.resetCycle_drained y hy), (hall _ List.getLastD_mem_cons).present _⟩

theorem genuine_nextBlock (hb : ∀ y ∈ b.pipe, y.Genuine) : (nextBlock b).Genuine := by
  obtain ⟨-, h⟩ | ⟨-, h⟩ | ⟨-, -, h⟩ := nextBlock_cases b <;> rw [h]
  · exact Block.genuine_resetCycle hb
  · exact Block.genuine_clock (Slot.genuine_answer _ _) hb
  · exact Block.genuine_clock (Slot.genuine_of_invalid rfl) hb

end

/-- Settles O42: a step is `nextBlock` in the same instance, which keeps the number of stages and the genuine slots. -/
theorem stepKeepsInvariant : Obligations.StepKeepsInvariant := by
  rintro ⟨p, b⟩ s' ⟨hN, hlen⟩ ⟨hpipe, -⟩ hstep
  rw [step_eq, Host.Outcome.next.injEq] at hstep
  subst hstep
  exact ⟨⟨hN, (length_nextBlock b).trans hlen⟩, (State.genuine_iff _).mpr (genuine_nextBlock hpipe), rfl⟩

theorem State.elaborate_drained (p : Params) : (State.elaborate p).block.Drained := by
  intro x hx
  rw [List.eq_of_mem_replicate hx, Slot.empty_valid]

theorem State.elaborate_length (p : Params) : (State.elaborate p).block.pipe.length = p.latency := by simp

/-- No slot is valid right after reset, so every slot is genuine. -/
theorem State.elaborate_genuine (p : Params) : (State.elaborate p).Genuine :=
  ⟨fun x hx => Slot.genuine_of_invalid (State.elaborate_drained p x hx), Slot.genuine_of_invalid rfl⟩

/-- Settles O43: `State.reset` is the elaborated state of the default instance, whose `N` is 8. -/
theorem resetHasInvariant : Obligations.ResetHasInvariant :=
  have elaborated (p : Params) (hp : p.wf) : (State.elaborate p).WF ∧ (State.elaborate p).Genuine :=
    ⟨⟨hp, State.elaborate_length p⟩, State.elaborate_genuine p⟩
  ⟨elaborated, elaborated Config.defaultParams (by decide)⟩

/-- Settles O44: the elaborated pipeline is `LATENCY` empty slots. -/
theorem stateAfterReset : Obligations.StateAfterReset :=
  ⟨fun p => ⟨rfl, State.elaborate_drained p, State.elaborate_length p, rfl⟩, by decide⟩

end Sys2Proof.Machine
end

section
/-! SUPPORT. Slots and blocks that no rule may tell apart stay so through a cycle (O37). -/

namespace Sys2Proof.Machine

section
variable {N : Nat} {x y : Slot N} {a b : Block N}

theorem Slot.Alike.refl (x : Slot N) : x.Alike x := ⟨rfl, fun _ => rfl⟩

/-- An invalid slot's fields are replaced by free values, so slots alike are presented as the same. -/
theorem Slot.Alike.present_eq (h : x.Alike y) (c : Nat) : x.present c = y.present c := by
  obtain ⟨v, r⟩ := x
  obtain ⟨w, r'⟩ := y
  obtain ⟨rfl : v = w, hr⟩ := h
  cases v
  · rfl
  · exact congrArg (Slot.present c ⟨true, ·⟩) (hr rfl)

theorem alike_getLastD {l l' : List (Slot N)} (h : List.Forall₂ Slot.Alike l l') (hxy : x.Alike y) :
    (l.getLastD x).Alike (l'.getLastD y) := by
  induction h generalizing x y with
  | nil => exact hxy
  | cons hhead _ ih => simpa only [List.getLastD_cons] using ih hhead

/-- A cycle that the same slot enters presents the same from blocks alike, and leaves them alike. -/
theorem Block.Alike.clock (h : a.Alike b) (x : Slot N) :
    (a.clock x).Alike (b.clock x) ∧ (a.clock x).out.Alike (b.clock x).out := by
  obtain ⟨hpipe, hstim, hcycle⟩ := h
  have hpipe' : List.Forall₂ Slot.Alike (a.clock x).pipe (b.clock x).pipe := by
    simpa only [Block.clock_pipe, List.dropLast_eq_take, List.length_cons, hpipe.length_eq]
      using List.forall₂_take _ (hpipe.cons (Slot.Alike.refl x))
  have hout : (a.clock x).out = (b.clock x).out := by
    rw [Block.clock_out, Block.clock_out, hcycle, (alike_getLastD hpipe (Slot.Alike.refl x)).present_eq]
  exact ⟨⟨hpipe', hstim, congrArg (· + 1) hcycle⟩, hout ▸ Slot.Alike.refl _⟩

/-- A reset cycle presents the same from blocks alike, and leaves the same number of bubbles. -/
theorem Block.Alike.resetCycle (h : a.Alike b) :
    a.resetCycle.Alike b.resetCycle ∧ a.resetCycle.out.Alike b.resetCycle.out := by
  obtain ⟨hpipe, hstim, hcycle⟩ := h
  have hpipe' : a.resetCycle.pipe = b.resetCycle.pipe := by
    rw [Block.resetCycle_pipe, Block.resetCycle_pipe, hpipe.length_eq, hcycle]
  have hout : a.resetCycle.out = b.resetCycle.out := by
    rw [Block.resetCycle_out, Block.resetCycle_out, hcycle, (alike_getLastD hpipe (Slot.Alike.refl _)).present_eq]
  exact ⟨⟨hpipe' ▸ List.forall₂_same.mpr fun z _ => Slot.Alike.refl z, hstim, congrArg (· + 1) hcycle⟩,
    hout ▸ Slot.Alike.refl _⟩

/-- Blocks alike read the same inputs, so the same slot enters both, or both are reset. -/
theorem Block.Alike.nextBlock (h : a.Alike b) :
    (nextBlock a).Alike (nextBlock b) ∧ (nextBlock a).out.Alike (nextBlock b).out := by
  obtain ⟨hpipe, hstim, hcycle⟩ := h
  have hin : a.inputs = b.inputs := congrArg (List.headD · _) hstim
  have htail : Block.Alike { a with stimulus := a.stimulus.tail, cycleNo := b.cycleNo }
      { b with stimulus := b.stimulus.tail } := ⟨hpipe, congrArg List.tail hstim, rfl⟩
  unfold Machine.nextBlock
  rw [hin, hcycle]
  split
  · exact htail.resetCycle
  · split
    · exact htail.clock _
    · exact htail.clock _

end

/-- Settles O37, by what a cycle does to blocks alike. -/
theorem invalidStageDataUnobservable : Obligations.InvalidStageDataUnobservable := by
  intro p a b a' b' hab ha hb
  rw [step_next ha, step_next hb]
  exact hab.nextBlock

end Sys2Proof.Machine
end

section
/-! SUPPORT. The pipeline against the description without one (R203): stage `s` holds what an instance of latency `s` is to
present, so the responses of an execution are those due to its inputs, and O41 follows. -/

namespace Sys2Proof.Machine

/-- The response to the command accepted in a cycle with the inputs `i`, if one is. -/
def Inputs.answer {N : Nat} (i : Inputs N) : Option (Response N) :=
  if i.accepts then some (F N i.cmdOp i.cmdWord) else none

theorem Inputs.answer_of_rst {N : Nat} {i : Inputs N} (h : i.rst = true) : i.answer = none := by
  simp [Inputs.answer, Inputs.accepts, h]

theorem Inputs.answer_of_accepts {N : Nat} {i : Inputs N} (h : i.accepts = true) :
    i.answer = some (F N i.cmdOp i.cmdWord) := if_pos h

theorem Inputs.answer_of_cmdValid {N : Nat} {i : Inputs N} (h : i.cmdValid = false) : i.answer = none := by
  simp [Inputs.answer, Inputs.accepts, h]

theorem Inputs.rst_of_accepts {N : Nat} {i : Inputs N} (h : i.accepts = true) : i.rst = false := by
  simpa using (Bool.and_eq_true_iff.mp h).2

theorem Slot.response_bubble (N cycle place : Nat) : (Slot.bubble N cycle place).response = none := rfl

theorem Slot.eq_of_response {N : Nat} {x : Slot N} {r : Response N} (h : x.response = some r) : x = ⟨true, r⟩ := by
  obtain ⟨v, r'⟩ := x
  cases v <;> simp_all [Slot.response]

/-! What the description without a pipeline says of a cycle, in terms of the cycle before. -/

section
variable {N : Nat} (ins : List (Inputs N))

theorem discarded_of_le_one {L : Nat} (h : L ≤ 1) (t : Nat) : discarded L ins t = false := by
  simp [discarded, Nat.sub_eq_zero_of_le h]

/-- A latency one longer can be discarded in one cycle more. -/
theorem discarded_succ {L : Nat} (hL : 1 ≤ L) (t : Nat) :
    discarded (L + 1) ins t = (discarded L ins t || (inputsAt ins (t + L)).rst) := by
  obtain ⟨k, rfl⟩ := Nat.exists_eq_add_of_le' hL
  simp only [discarded, Nat.add_sub_cancel, List.range'_1_concat, List.any_append, List.any_cons, List.any_nil,
    Bool.or_false]
  congr 3; omega

theorem responseDue_zero (t : Nat) : responseDue 0 ins t = (inputsAt ins t).answer := by
  simp [responseDue, answerTo, Inputs.answer, discarded_of_le_one]

theorem responseDue_succ_zero (L : Nat) : responseDue (L + 1) ins 0 = none := by
  simp [responseDue]

/-- What is due with a latency one longer was due the cycle before, unless that cycle was a reset. -/
theorem responseDue_succ_succ (L t : Nat) :
    responseDue (L + 1) ins (t + 1) = if (inputsAt ins t).rst then none else responseDue L ins t := by
  obtain rfl | hL := Nat.eq_zero_or_pos L
  · cases hrst : (inputsAt ins t).rst <;>
      simp [responseDue, answerTo, Inputs.accepts, discarded_of_le_one, hrst]
  · by_cases ht : L ≤ t
    · have hsub : t + 1 - (L + 1) = t - L := by omega
      have hadd : t - L + L = t := by omega
      cases hrst : (inputsAt ins t).rst <;>
        simp [responseDue, answerTo, ht, hsub, hadd, discarded_succ ins hL, hrst]
    · simp [responseDue, ht]

end

/-! What a cycle does to the responses in flight and on the port. -/

section
variable {N : Nat} (b : Block N)

/-- The responses in flight, stage 1 first. -/
def Block.inFlight (b : Block N) : List (Option (Response N)) := b.pipe.map Slot.response

theorem Block.inFlight_clock (x : Slot N) :
    (b.clock x).inFlight = (x.response :: b.inFlight).dropLast := by
  simp [Block.inFlight, List.map_dropLast]

theorem Block.inFlight_resetCycle : b.resetCycle.inFlight = List.replicate b.pipe.length none := by
  simp [Block.inFlight, Function.comp_def, Slot.response_bubble]

theorem Block.response_out_clock (x : Slot N) :
    (b.clock x).out.response = b.inFlight.getLastD x.response := by
  simp [Block.inFlight, List.getLastD_eq_getLast?, Option.getD_map]

theorem Block.response_out_resetCycle : b.resetCycle.out.response = b.inFlight.getLastD none := by
  simp [Block.inFlight, List.getLastD_eq_getLast?, ← Slot.response_bubble N b.cycleNo 0, Option.getD_map]

theorem Block.inFlight_of_drained (h : b.Drained) : b.inFlight = List.replicate b.pipe.length none := by
  refine List.eq_replicate_iff.mpr ⟨by simp [Block.inFlight], ?_⟩
  intro r hr
  obtain ⟨x, hx, rfl⟩ := List.mem_map.mp hr
  simp [Slot.response, h x hx]

theorem inFlight_nextBlock : (nextBlock b).inFlight =
    if b.inputs.rst then List.replicate b.pipe.length none else (b.inputs.answer :: b.inFlight).dropLast := by
  obtain ⟨hrst, h⟩ | ⟨hacc, h⟩ | ⟨hrst, hcmd, h⟩ := nextBlock_cases b <;> rw [h]
  · rw [Block.inFlight_resetCycle, if_pos hrst]
  · rw [Block.inFlight_clock, if_neg (by simp [Inputs.rst_of_accepts hacc]), Inputs.answer_of_accepts hacc]
    rfl
  · rw [Block.inFlight_clock, if_neg (by simp [hrst]), Inputs.answer_of_cmdValid hcmd]
    rfl

theorem response_out_nextBlock : (nextBlock b).out.response = b.inFlight.getLastD b.inputs.answer := by
  obtain ⟨hrst, h⟩ | ⟨hacc, h⟩ | ⟨-, hcmd, h⟩ := nextBlock_cases b <;> rw [h]
  · rw [Block.response_out_resetCycle, Inputs.answer_of_rst hrst]
    rfl
  · rw [Block.response_out_clock, Inputs.answer_of_accepts hacc]
    rfl
  · rw [Block.response_out_clock, Inputs.answer_of_cmdValid hcmd]
    rfl

theorem runFrom_stimulus (t : Nat) : (runFrom b t).stimulus = b.stimulus.drop t := by
  induction t with
  | zero => rfl
  | succ t ih => rw [runFrom, nextBlock_stimulus, ih, List.tail_drop]

theorem runFrom_inputs (t : Nat) : (runFrom b t).inputs = inputsAt b.stimulus t := by
  simp [Block.inputs, inputsAt, runFrom_stimulus, List.headD_eq_head?_getD, List.head?_drop]

theorem length_runFrom (t : Nat) : (runFrom b t).pipe.length = b.pipe.length := by
  induction t with
  | zero => rfl
  | succ t ih => rw [runFrom, length_nextBlock, ih]

end

/-- The simulation: in an execution from an empty pipeline, stage `s` holds what an instance of latency `s` is to present. -/
theorem inFlight_runFrom {N : Nat} {b : Block N} (h : b.Drained) (t : Nat) :
    (runFrom b t).inFlight = (List.range b.pipe.length).map fun s => responseDue (s + 1) b.stimulus t := by
  induction t with
  | zero =>
    simp [runFrom, Block.inFlight_of_drained b h, responseDue_succ_zero, List.map_const']
  | succ t ih =>
    rw [runFrom, inFlight_nextBlock, runFrom_inputs, length_runFrom, ih, ← responseDue_zero]
    simp only [responseDue_succ_succ]
    split
    · simp [List.map_const']
    · have hcons : responseDue 0 b.stimulus t :: (List.range b.pipe.length).map (fun s => responseDue (s + 1) b.stimulus t)
          = (List.range (b.pipe.length + 1)).map fun s => responseDue s b.stimulus t := by
        simp [List.range_succ_eq_map, Function.comp_def]
      rw [hcons, List.range_succ, List.map_append, List.map_singleton, List.dropLast_concat]

/-- R203: what the port shows in a cycle is what the description without a pipeline says is due. -/
theorem response_out_runFrom {N : Nat} {b : Block N} (h : b.Drained) (t : Nat) :
    (runFrom b (t + 1)).out.response = responseDue b.pipe.length b.stimulus t := by
  rw [runFrom, response_out_nextBlock, runFrom_inputs, inFlight_runFrom h, ← responseDue_zero]
  cases b.pipe.length with
  | zero => rfl
  | succ L => rw [List.range_succ, List.map_append, List.map_singleton, List.getLastD_concat]

theorem responseDue_accepted {N L t : Nat} {ins : List (Inputs N)} (hacc : (inputsAt ins t).accepts = true)
    (hkept : discarded L ins t = false) :
    responseDue L ins (t + L) = some (F N (inputsAt ins t).cmdOp (inputsAt ins t).cmdWord) := by
  simp [responseDue, answerTo, hacc, hkept]

/-- The port shows the answer to an accepted command that is not discarded, `LATENCY` cycles later. -/
theorem Execution.out_accepted {p : Params} {f : Nat → Block p.N} (hf : Execution p f)
    (hlen : (f 0).pipe.length = p.latency) (hdrained : (f 0).Drained) {t : Nat}
    (hacc : (inputsAt (f 0).stimulus t).accepts = true) (hkept : discarded p.latency (f 0).stimulus t = false) :
    (f (t + p.latency + 1)).out
      = ⟨true, F p.N (inputsAt (f 0).stimulus t).cmdOp (inputsAt (f 0).stimulus t).cmdWord⟩ := by
  rw [hf.eq_runFrom]
  apply Slot.eq_of_response
  rw [response_out_runFrom hdrained, hlen]
  exact responseDue_accepted hacc hkept

/-- Settles O41: both executions show `F` of the one command. -/
theorem responseIndependentOfHistory : Obligations.ResponseIndependentOfHistory := by
  rintro N L L' f g _ _ t t' hf hflen hfdrained rfl hg hglen hgdrained rfl hsame hacc hkept hkept'
  have hout := hf.out_accepted hflen hfdrained hacc hkept
  have hout' := hg.out_accepted hglen hgdrained (hsame ▸ hacc) hkept'
  exact ⟨by rw [hout, hout', hsame], by rw [hout]⟩

end Sys2Proof.Machine
end

section
/-! SUPPORT. The responses of an execution as one list (O39): those due to its inputs, cycle by cycle, and the cycles before
the first response and after the last input add none. -/

namespace Sys2Proof.Machine

section
variable {N : Nat} (L : Nat) (ins : List (Inputs N))

/-- After its list the host drives nothing. -/
theorem answerTo_of_length_le {t : Nat} (h : ins.length ≤ t) : answerTo L ins t = none := by
  simp [answerTo, inputsAt, List.getElem?_eq_none h, Inputs.accepts, Inputs.quiet]

/-- What is due in the cycles after the first `L` is what the commands accepted so far are answered. -/
theorem filterMap_responseDue (m : Nat) :
    (List.range (L + m)).filterMap (responseDue L ins) = (List.range m).filterMap (answerTo L ins) := by
  have early : (List.range L).filterMap (responseDue L ins) = [] :=
    List.filterMap_eq_nil_iff.mpr fun t ht => if_neg (Nat.not_le.mpr (List.mem_range.mp ht))
  have late : responseDue L ins ∘ (L + ·) = answerTo L ins := by
    funext t
    simp [responseDue]
  rw [List.range_add, List.filterMap_append, early, List.nil_append, List.filterMap_map, late]

/-- Cycles after the last input add no answer. -/
theorem filterMap_answerTo {m : Nat} (h : ins.length ≤ m) :
    (List.range m).filterMap (answerTo L ins) = answers L ins := by
  obtain ⟨k, rfl⟩ := Nat.exists_eq_add_of_le h
  have idle : ((List.range k).map (ins.length + ·)).filterMap (answerTo L ins) = [] := by
    simp [answerTo_of_length_le]
  rw [List.range_add, List.filterMap_append, idle, List.append_nil, answers]

variable {L ins} in
/-- With no reset nothing is discarded. -/
theorem answerTo_of_no_reset (h : ∀ i ∈ ins, i.rst = false) (t : Nat) :
    answerTo L ins t = (inputsAt ins t).answer := by
  have noReset (u : Nat) : (inputsAt ins u).rst = false := by
    by_cases hu : u < ins.length
    · simpa [inputsAt, hu] using h _ (List.getElem_mem hu)
    · simp [inputsAt, List.getElem?_eq_none (Nat.le_of_not_lt hu), Inputs.quiet]
  have kept : discarded L ins t = false := by simp [discarded, noReset]
  simp [answerTo, kept, Inputs.answer]

variable {L ins} in
/-- With no reset the answers are those to the inputs, one after the other. -/
theorem answers_of_no_reset (h : ∀ i ∈ ins, i.rst = false) : answers L ins = ins.filterMap Inputs.answer := by
  have inOrder : ins = (List.range ins.length).map (inputsAt ins) :=
    List.ext_getElem (by simp) (by simp +contextual [inputsAt])
  conv_rhs => rw [inOrder, List.filterMap_map]
  exact congrArg (List.filterMap · _) (funext (answerTo_of_no_reset h))

theorem filterMap_answer :
    ins.filterMap Inputs.answer = (ins.filter Inputs.accepts).map fun i => F N i.cmdOp i.cmdWord := by
  rw [← List.filterMap_eq_map, List.filterMap_filter]
  rfl

end

/-- The responses an execution from an empty pipeline presents are those due to its inputs. -/
theorem Execution.presented_eq {p : Params} {f : Nat → Block p.N} (hf : Execution p f)
    (hlen : (f 0).pipe.length = p.latency) (hdrained : (f 0).Drained) (n : Nat) :
    presented f n = (List.range n).filterMap (responseDue p.latency (f 0).stimulus) := by
  refine congrArg (List.filterMap · _) (funext fun t => ?_)
  rw [hf.eq_runFrom, response_out_runFrom hdrained, hlen]
  rfl

/-- Settles O39: the responses due, less the cycles that have none, are the answers to the inputs. -/
theorem responsesAreMapF : Obligations.ResponsesAreMapF := by
  rintro p f _ hf hlen hdrained rfl n hn
  obtain ⟨m, rfl⟩ := Nat.exists_eq_add_of_le (Nat.le_of_add_left_le hn)
  have all : presented f (p.latency + m) = answers p.latency (f 0).stimulus := by
    rw [hf.presented_eq hlen hdrained, filterMap_responseDue, filterMap_answerTo _ _ (by omega)]
  exact ⟨all, fun noReset => by rw [all, answers_of_no_reset noReset, filterMap_answer]⟩

end Sys2Proof.Machine
end

section
/-! SUPPORT. The two numeral readings of a bit list, bit by bit, and the ports that carry them (R41 to R43, O8). -/

namespace Sys2Proof

/-- Bit lists of one length with the same bit at each position are equal. -/
theorem bits_ext {L L' : Bits} (hlen : L.length = L'.length)
    (h : ∀ j, 1 ≤ j → j ≤ L.length → bitAt L j = bitAt L' j) : L = L' := by
  refine List.ext_getElem hlen fun j hj hj' => ?_
  simpa [hj, hj'] using h (j + 1) (Nat.le_add_left 1 j) hj

/-- Read most significant bit first, bit `k` of the value is the `k`-th position from the end. -/
theorem testBit_msbValue (L : Bits) (k : Nat) : (msbValue L).testBit k = bitAt L (L.length - k) := by
  induction L using List.reverseRecOn generalizing k with
  | nil => simp [msbValue]
  | append_singleton L b ih =>
    rw [msbValue_append, ← Nat.bit_val, List.length_append, List.length_singleton]
    cases k with
    | zero => simp
    | succ k =>
      rw [Nat.testBit_bit_succ, ih, Nat.add_sub_add_right]
      cases h : L.length - k with
      | zero => rfl
      | succ j => simp [List.getElem?_append_left (show j < L.length by omega)]

/-- Read least significant bit first, bit `i` of the value is entry `i`. -/
theorem testBit_lsbValue (r : Bits) (i : Nat) : (lsbValue r).testBit i = r.getD i false := by
  induction r generalizing i with
  | nil => simp [lsbValue]
  | cons b r ih =>
    rw [lsbValue, Nat.add_comm, ← Nat.bit_val]
    cases i with
    | zero => simp
    | succ i => rw [Nat.testBit_bit_succ, ih, List.getD_cons_succ]

theorem lsbValue_eq_sum (r : Bits) :
    lsbValue r = ((List.range r.length).map fun i => (r.getD i false).toNat * 2 ^ i).sum := by
  induction r with
  | nil => rfl
  | cons b r ih =>
    have shifted : ((List.range r.length).map fun i => (r.getD i false).toNat * 2 ^ (i + 1)).sum = 2 * lsbValue r := by
      rw [ih, ← List.sum_map_mul_left]
      exact congrArg List.sum (List.map_congr_left fun i _ => by ring)
    simpa [lsbValue, List.range_succ_eq_map, Function.comp_def] using shifted.symm

theorem msbValue_ofPort {w : Nat} (v : BitVec w) : msbValue (ofPort v) = v.toNat := by
  refine Nat.eq_of_testBit_eq fun k => ?_
  rw [testBit_msbValue, length_ofPort, BitVec.testBit_toNat]
  by_cases hk : k < w
  · rw [bitAt_ofPort v (by omega) (by omega), Nat.sub_sub_self hk.le]
  · rw [Nat.sub_eq_zero_of_le (by omega), bitAt_zero, BitVec.getLsbD_of_ge v k (by omega)]

@[simp] theorem toPort_ofPort {w : Nat} (v : BitVec w) : toPort w (ofPort v) = v := by
  rw [toPort, msbValue_ofPort, BitVec.ofNat_toNat, BitVec.setWidth_eq]

theorem getLsbD_toPort {w : Nat} {L : Bits} (hL : L.length = w) {j : Nat} (h : 1 ≤ j) (hj : j ≤ w) :
    (toPort w L).getLsbD (w - j) = bitAt L j := by
  rw [toPort, BitVec.getLsbD_ofNat, testBit_msbValue, hL, Nat.sub_sub_self hj, decide_eq_true (by omega), Bool.true_and]

theorem ofPort_toPort {w : Nat} {L : Bits} (hL : L.length = w) : ofPort (toPort w L) = L := by
  refine bits_ext (by rw [length_ofPort, hL]) fun j h hj => ?_
  rw [length_ofPort] at hj
  rw [bitAt_ofPort _ h hj, getLsbD_toPort hL h hj]

theorem toNat_toLsbPort {w : Nat} {r : Bits} (hr : r.length = w) : (toLsbPort w r).toNat = lsbValue r := by
  rw [toLsbPort, BitVec.toNat_ofNat, Nat.mod_eq_of_lt (hr ▸ lsbValue_lt r)]

theorem getLsbD_toLsbPort {w : Nat} {r : Bits} (hr : r.length = w) (i : Nat) :
    (toLsbPort w r).getLsbD i = r.getD i false := by
  rw [← BitVec.testBit_toNat, toNat_toLsbPort hr, testBit_lsbValue]

/-- R41 and R42 of a port of any width: its vector's length, its positions, and its value as a binary numeral. -/
theorem port_bitOrder {w : Nat} (v : BitVec w) :
    (ofPort v).length = w ∧ (∀ j, 1 ≤ j → j ≤ w → bitAt (ofPort v) j = v.getLsbD (w - j)) ∧
    msbValue (ofPort v) = v.toNat ∧ toPort w (ofPort v) = v :=
  ⟨length_ofPort v, fun _ => bitAt_ofPort v, msbValue_ofPort v, toPort_ofPort v⟩

end Sys2Proof

namespace Sys2Proof.Machine

/-- Settles O8: the codeword and data ports are ports of `M` and of `N` bits, the syndrome port one of `K` bits. -/
theorem portBitOrders : Obligations.PortBitOrders := by
  have syndromePort (N : Nat) (r : Bits) (hr : r.length = Layout.K N) :
      (toLsbPort (Layout.K N) r).toNat
        = ((List.range (Layout.K N)).map fun i => (r.getD i false).toNat * 2 ^ i).sum := by
    rw [toNat_toLsbPort hr, lsbValue_eq_sum, hr]
  exact ⟨fun _ C => port_bitOrder C, fun _ D => port_bitOrder D, fun _ _ hL _ => getLsbD_toPort hL,
    fun N r hr => ⟨fun i _ => getLsbD_toLsbPort hr i, syndromePort N r hr⟩, by decide, by decide⟩

end Sys2Proof.Machine
end

section
/-! SUPPORT. The layout's bounds: `K` is the least count that R100 asks for, so `M < 2^K` and every parity position lies below
`M` (R104). -/

namespace Sys2Proof.Layout

/-- The search stops at the least count from where it starts, if its fuel reaches some count that is large enough. -/
theorem leastCount_spec {N fuel k : Nat} (h : N + (k + fuel) + 1 ≤ 2 ^ (k + fuel)) :
    N + leastCount N fuel k + 1 ≤ 2 ^ leastCount N fuel k ∧
    ∀ j, k ≤ j → j < leastCount N fuel k → 2 ^ j < N + j + 1 := by
  induction fuel generalizing k with
  | zero => exact ⟨h, fun j hj hj' => absurd hj (Nat.not_le.mpr hj')⟩
  | succ fuel ih =>
    rw [leastCount]
    split
    · next stop => exact ⟨stop, fun j hj hj' => absurd hj (Nat.not_le.mpr hj')⟩
    · next go =>
      obtain ⟨enough, least⟩ := ih (k := k + 1) (by rwa [Nat.add_right_comm k 1, Nat.add_assoc k])
      refine ⟨enough, fun j hj hj' => ?_⟩
      obtain rfl | hlt := hj.eq_or_lt
      · exact Nat.lt_of_not_le go
      · exact least j hlt hj'

/-- R100: `K` is large enough, and nothing smaller is. -/
theorem K_spec (N : Nat) : N + K N + 1 ≤ 2 ^ K N ∧ ∀ j, j < K N → 2 ^ j < N + j + 1 := by
  have reached : N + (0 + (N + 1)) + 1 ≤ 2 ^ (0 + (N + 1)) := by
    have := Nat.lt_two_pow_self (n := N)
    rw [Nat.zero_add, pow_succ]
    omega
  obtain ⟨enough, least⟩ := leastCount_spec reached
  exact ⟨enough, fun j => least j (Nat.zero_le j)⟩

theorem M_lt_two_pow_K (N : Nat) : M N < 2 ^ K N := (K_spec N).1

theorem two_pow_le_of_lt_K {N i : Nat} (h : i < K N) : 2 ^ i ≤ N + i := Nat.le_of_lt_succ ((K_spec N).2 i h)

theorem two_pow_lt_M {N i : Nat} (h : i < K N) : 2 ^ i < M N := by
  have := two_pow_le_of_lt_K h
  rw [M_eq]
  omega

end Sys2Proof.Layout
end

section
/-! SUPPORT. The syndrome value as an XOR of positions (R107), and what a change at one position does to it. -/

namespace Sys2Proof

open Layout

@[simp] theorem bit_two_pow (k i : Nat) : bit (2 ^ k) i = decide (k = i) := Nat.testBit_two_pow

theorem xorAll_map_xor {α : Type} (l : List α) (f g : α → Bool) :
    xorAll (l.map fun a => f a ^^ g a) = (xorAll (l.map f) ^^ xorAll (l.map g)) := by
  induction l with
  | nil => rfl
  | cons a l ih =>
    simp only [List.map_cons, xorAll_cons, ih, Bool.xor_assoc, Bool.xor_left_comm]

theorem xorAll_map_false {α : Type} {l : List α} {f : α → Bool} (h : ∀ a ∈ l, f a = false) :
    xorAll (l.map f) = false := by
  induction l with
  | nil => rfl
  | cons a l ih =>
    rw [List.map_cons, xorAll_cons, h a List.mem_cons_self, ih fun b hb => h b (List.mem_cons_of_mem a hb)]
    rfl

/-- A sum with one entry that can be 1. -/
theorem xorAll_map_single {α : Type} {l : List α} (hl : l.Nodup) {p : α} (hp : p ∈ l) {f : α → Bool}
    (h : ∀ a ∈ l, a ≠ p → f a = false) : xorAll (l.map f) = f p := by
  induction l with
  | nil => exact absurd hp List.not_mem_nil
  | cons a l ih =>
    obtain ⟨ha, hl⟩ := List.nodup_cons.mp hl
    rw [List.map_cons, xorAll_cons]
    obtain rfl | hp := List.mem_cons.mp hp
    · rw [xorAll_map_false fun b hb => h b (List.mem_cons_of_mem p hb) (ne_of_mem_of_not_mem hb ha), Bool.xor_false]
    · rw [h a List.mem_cons_self (ne_of_mem_of_not_mem hp ha).symm, Bool.false_xor,
        ih hl hp fun b hb => h b (List.mem_cons_of_mem a hb)]

/-- Two sums that differ at one entry differ by the difference there. -/
theorem xorAll_map_differ {α : Type} {l : List α} (hl : l.Nodup) {p : α} (hp : p ∈ l) {f g : α → Bool}
    (h : ∀ a ∈ l, a ≠ p → f a = g a) : xorAll (l.map f) = (xorAll (l.map g) ^^ (f p ^^ g p)) := by
  have single := xorAll_map_single hl hp (f := fun a => f a ^^ g a) fun a ha hne => by rw [h a ha hne, Bool.xor_self]
  rw [xorAll_map_xor] at single
  rw [← single, Bool.xor_comm (xorAll (l.map f)), ← Bool.xor_assoc, Bool.xor_self, Bool.false_xor]

end Sys2Proof

namespace Sys2Proof.Layout

/-- The terms of R107's sum for row `i`: `H[i][j] and v[j]` over the columns. -/
def rowTerms (N : Nat) (v : Bits) (i : Nat) : Bits := (List.range' 1 (M N)).map fun j => bit j i && bitAt v j

theorem bits_eq_map_bitAt {v : Bits} {n : Nat} (hv : v.length = n) : v = (List.range' 1 n).map (bitAt v) := by
  subst hv
  refine List.ext_getElem (by simp) fun j hj _ => ?_
  simp [Nat.add_comm 1 j, hj]

/-- R107: entry `i` of the product is the sum over the columns. -/
theorem mulVec_getD {N : Nat} {v : Bits} (hv : v.length = M N) {i : Nat} (hi : i < K N) :
    (mulVec N v).getD i false = xorAll (rowTerms N v i) := by
  have row : (mulVec N v).getD i false
      = xorAll (List.zipWith and ((List.range' 1 (M N)).map fun j => bit j i) v) := by
    simp [mulVec, H, hi]
  rw [row, rowTerms]
  conv_lhs => rw [bits_eq_map_bitAt hv, List.zipWith_map, List.zipWith_self]

/-- Bit `i` of the syndrome value is the sum for row `i`: no position has a bit at `K` or above. -/
theorem testBit_syndromeValue {N : Nat} {v : Bits} (hv : v.length = M N) (i : Nat) :
    (Machine.syndromeValue N v).testBit i = xorAll (rowTerms N v i) := by
  rw [Machine.syndromeValue, testBit_lsbValue]
  by_cases hi : i < K N
  · exact mulVec_getD hv hi
  · rw [List.getD_eq_default _ _ (by simpa using hi), rowTerms, xorAll_map_false]
    intro j hj
    have small : j < 2 ^ i := by
      have := M_lt_two_pow_K N
      have := Nat.pow_le_pow_right (n := 2) (by decide) (Nat.le_of_not_lt hi)
      have := List.mem_range'_1.mp hj
      omega
    rw [bit, Nat.testBit_lt_two_pow small, Bool.false_and]

/-- Words that agree but at position `p` have sums that differ by `p`'s terms. -/
theorem xorAll_rowTerms_differ {N : Nat} {v w : Bits} {p : Nat} (i : Nat) (h1 : 1 ≤ p) (hp : p ≤ M N)
    (h : ∀ j, j ≠ p → bit j i = true → bitAt v j = bitAt w j) :
    xorAll (rowTerms N v i) = (xorAll (rowTerms N w i) ^^ (bit p i && (bitAt v p ^^ bitAt w p))) := by
  rw [Bool.and_xor_distrib_left]
  refine xorAll_map_differ List.nodup_range' (List.mem_range'_1.mpr (by omega)) fun j _ hj => ?_
  cases hb : bit j i
  · rfl
  · rw [h j hj hb]

end Sys2Proof.Layout

namespace Sys2Proof.Machine

open Layout

/-- R145: inverting position `p` adds `p` to the syndrome value. -/
theorem syndromeValue_flipAt {N : Nat} {c : Bits} (hc : c.length = M N) {p : Nat} (h1 : 1 ≤ p) (hp : p ≤ M N) :
    syndromeValue N (flipAt c p) = syndromeValue N c ^^^ p := by
  refine Nat.eq_of_testBit_eq fun i => ?_
  have differ := xorAll_rowTerms_differ (N := N) (v := flipAt c p) (w := c) i h1 hp fun j hj _ => by
    rw [bitAt_flipAt c j h1 (hc ▸ hp), if_neg hj]
  rw [Nat.testBit_xor, testBit_syndromeValue (by simpa using hc), testBit_syndromeValue hc, differ,
    bitAt_flipAt c p h1 (hc ▸ hp), if_pos rfl, Bool.not_xor_self, Bool.and_true, bit]

end Sys2Proof.Machine
end

section
/-! SUPPORT. ENCODE's codeword has syndrome 0 (R123), and stripping gives the data word back (R143). -/

namespace Sys2Proof

theorem removeAt_eq_eraseIdx (L : Bits) {p : Nat} (h : 1 ≤ p) : removeAt L p = L.eraseIdx (p - 1) := by
  obtain ⟨p, rfl⟩ := Nat.exists_eq_add_of_le' h
  exact (List.eraseIdx_eq_take_drop_succ L p).symm

theorem setAt_eq_set (L : Bits) (b : Bool) {p : Nat} (h : 1 ≤ p) : setAt L b p = L.set (p - 1) b := by
  obtain ⟨p, rfl⟩ := Nat.exists_eq_add_of_le' h
  rfl

section
variable (L : Bits) (b : Bool) {p q : Nat}

theorem setAt_bitAt (h : 1 ≤ p) : setAt L (bitAt L p) p = L := by
  rw [setAt_eq_set L _ h, bitAt_of_pos L h]
  refine List.ext_getElem (by simp) fun j _ hj => ?_
  rw [List.getElem_set]
  split
  · next e => subst e; simp [hj]
  · rfl

theorem flipAt_flipAt (h : 1 ≤ p) (hp : p ≤ L.length) : flipAt (flipAt L p) p = L := by
  have back : (!bitAt (flipAt L p) p) = bitAt L p := by rw [bitAt_flipAt L p h hp, if_pos rfl, Bool.not_not]
  conv_rhs => rw [← setAt_bitAt L h]
  rw [flipAt, back, flipAt, setAt_eq_set _ _ h, setAt_eq_set _ _ h, setAt_eq_set _ _ h, List.set_set]

theorem removeAt_insertAt (h : 1 ≤ p) (hp : p ≤ L.length + 1) : removeAt (insertAt L p b) p = L := by
  obtain ⟨p, rfl⟩ := Nat.exists_eq_add_of_le' h
  have len : (L.take p).length = p := List.length_take_of_le (by omega)
  simp [removeAt, insertAt, List.drop_append, len, List.drop_eq_nil_of_le (len.trans_le p.le_succ)]

theorem removeAt_setAt_same (h : 1 ≤ p) : removeAt (setAt L b p) p = removeAt L p := by
  rw [removeAt_eq_eraseIdx _ h, setAt_eq_set L b h, List.eraseIdx_set_eq, removeAt_eq_eraseIdx L h]

/-- A removal leaves a write at an earlier position in its place. -/
theorem removeAt_setAt_below (h : 1 ≤ q) (hqp : q < p) : removeAt (setAt L b q) p = setAt (removeAt L p) b q := by
  rw [removeAt_eq_eraseIdx _ (by omega), setAt_eq_set L b h, List.eraseIdx_set_gt (by omega), setAt_eq_set _ b h,
    removeAt_eq_eraseIdx L (by omega)]

/-- It moves a write at a later position down by one. -/
theorem removeAt_setAt_above (h : 1 ≤ p) (hpq : p < q) : removeAt (setAt L b q) p = setAt (removeAt L p) b (q - 1) := by
  rw [removeAt_eq_eraseIdx _ h, setAt_eq_set L b (by omega), List.eraseIdx_set_lt (by omega),
    setAt_eq_set _ b (by omega), removeAt_eq_eraseIdx L h]

end

end Sys2Proof

namespace Sys2Proof.Machine

open Layout

/-! The three loops over the parity positions, over those below `2^k` alone. -/

/-- The first `k` insertions of R121. -/
def placeLow (k : Nat) (d : Bits) : Bits := (List.range k).foldl (fun c i => insertAt c (2 ^ i) false) d

/-- The first `k` overwrites of R122. -/
def writeLow (r : Bits) (k : Nat) (c : Bits) : Bits :=
  (List.range k).foldl (fun c i => setAt c (r.getD i false) (2 ^ i)) c

/-- The last `k` removals of R143. -/
def stripLow (k : Nat) (c : Bits) : Bits := (List.range k).reverse.foldl (fun e i => removeAt e (2 ^ i)) c

theorem insertPlaceholders_eq (N : Nat) (d : Bits) : insertPlaceholders N d = placeLow (K N) d := rfl
theorem overwriteParity_eq (N : Nat) (r c : Bits) : overwriteParity N r c = writeLow r (K N) c := rfl
theorem stripParity_eq (N : Nat) (c : Bits) : stripParity N c = stripLow (K N) c := rfl

section
variable (k : Nat) (r c d : Bits)

theorem placeLow_succ : placeLow (k + 1) d = insertAt (placeLow k d) (2 ^ k) false := by
  simp [placeLow, List.range_succ]

theorem writeLow_succ : writeLow r (k + 1) c = setAt (writeLow r k c) (r.getD k false) (2 ^ k) := by
  simp [writeLow, List.range_succ]

theorem stripLow_succ : stripLow (k + 1) c = stripLow k (removeAt c (2 ^ k)) := by
  simp [stripLow, List.range_succ]

@[simp] theorem length_placeLow : (placeLow k d).length = d.length + k := by
  induction k with
  | zero => rfl
  | succ k ih => rw [placeLow_succ, length_insertAt, ih, Nat.add_assoc]

@[simp] theorem length_writeLow : (writeLow r k c).length = c.length := by
  induction k with
  | zero => rfl
  | succ k ih => rw [writeLow_succ, length_setAt, ih]

variable {k r c d}

/-- R121: the next placeholder lands inside the growing list. -/
theorem two_pow_le_length_placeLow (h : 2 ^ k ≤ d.length + k) : 2 ^ k ≤ (placeLow k d).length + 1 := by
  rw [length_placeLow]
  exact Nat.le_succ_of_le h

/-- R121: later insertions land above, so the placeholder stays at its position. -/
theorem bitAt_placeLow (fits : ∀ i < k, 2 ^ i ≤ d.length + i) {i : Nat} (hi : i < k) :
    bitAt (placeLow k d) (2 ^ i) = false := by
  induction k with
  | zero => exact absurd hi (Nat.not_lt_zero i)
  | succ k ih =>
    have hk := two_pow_le_length_placeLow (fits k k.lt_succ_self)
    rw [placeLow_succ, bitAt_insertAt _ _ _ Nat.one_le_two_pow hk]
    obtain hlt | rfl := Nat.lt_succ_iff_lt_or_eq.mp hi
    · rw [if_pos (Nat.pow_lt_pow_right (by decide) hlt)]
      exact ih (fun j hj => fits j (Nat.lt_succ_of_lt hj)) hlt
    · rw [if_neg (lt_irrefl _), if_pos rfl]

/-- The overwrites write the parity bits, and nothing else. -/
theorem bitAt_writeLow (fits : ∀ i < k, 2 ^ i ≤ c.length) {i : Nat} (hi : i < k) :
    bitAt (writeLow r k c) (2 ^ i) = r.getD i false := by
  induction k with
  | zero => exact absurd hi (Nat.not_lt_zero i)
  | succ k ih =>
    rw [writeLow_succ, bitAt_setAt _ _ _ Nat.one_le_two_pow (by simpa using fits k k.lt_succ_self)]
    obtain hlt | rfl := Nat.lt_succ_iff_lt_or_eq.mp hi
    · rw [if_neg (Nat.pow_lt_pow_right (by decide) hlt).ne]
      exact ih (fun j hj => fits j (Nat.lt_succ_of_lt hj)) hlt
    · rw [if_pos rfl]

theorem bitAt_writeLow_of_ne (fits : ∀ i < k, 2 ^ i ≤ c.length) {j : Nat} (hj : ∀ i < k, j ≠ 2 ^ i) :
    bitAt (writeLow r k c) j = bitAt c j := by
  induction k with
  | zero => rfl
  | succ k ih =>
    rw [writeLow_succ, bitAt_setAt _ _ _ Nat.one_le_two_pow (by simpa using fits k k.lt_succ_self),
      if_neg (hj k k.lt_succ_self)]
    exact ih (fun i hi => fits i (Nat.lt_succ_of_lt hi)) fun i hi => hj i (Nat.lt_succ_of_lt hi)

/-- The removals undo the insertions. -/
theorem stripLow_placeLow (fits : ∀ i < k, 2 ^ i ≤ d.length + i) : stripLow k (placeLow k d) = d := by
  induction k with
  | zero => rfl
  | succ k ih =>
    have hk := two_pow_le_length_placeLow (fits k k.lt_succ_self)
    rw [stripLow_succ, placeLow_succ, removeAt_insertAt _ _ Nat.one_le_two_pow hk]
    exact ih fun j hj => fits j (Nat.lt_succ_of_lt hj)

/-- A removal above all the overwrites commutes with them. -/
theorem removeAt_writeLow {m : Nat} (h : k ≤ m) :
    removeAt (writeLow r k c) (2 ^ m) = writeLow r k (removeAt c (2 ^ m)) := by
  induction k with
  | zero => rfl
  | succ k ih =>
    rw [writeLow_succ, removeAt_setAt_below _ _ Nat.one_le_two_pow (Nat.pow_lt_pow_right (by decide) h),
      ih (Nat.le_of_succ_le h), writeLow_succ]

/-- What the overwrites write is removed. -/
theorem stripLow_writeLow : stripLow k (writeLow r k c) = stripLow k c := by
  induction k generalizing c with
  | zero => rfl
  | succ k ih =>
    rw [stripLow_succ, writeLow_succ, removeAt_setAt_same _ _ Nat.one_le_two_pow, removeAt_writeLow k.le_refl, ih,
      stripLow_succ]

/-- A write above all the removals moves down by as many. -/
theorem stripLow_setAt {q : Nat} (b : Bool) (h : ∀ i < k, 2 ^ i < q) :
    stripLow k (setAt c b q) = setAt (stripLow k c) b (q - k) := by
  induction k generalizing c q with
  | zero => rfl
  | succ k ih =>
    have hk : 2 ^ k < q := h k k.lt_succ_self
    have below (i : Nat) (hi : i < k) : 2 ^ i < q - 1 := by
      have : 2 ^ i < 2 ^ k := Nat.pow_lt_pow_right (by decide) hi
      omega
    rw [stripLow_succ, removeAt_setAt_above _ _ Nat.one_le_two_pow hk, ih below, stripLow_succ, Nat.sub_sub,
      Nat.add_comm 1 k]

end

section
variable {N : Nat} {d : Bits} (hd : d.length = N)
include hd

theorem two_pow_le_of_length {i : Nat} (hi : i < K N) : 2 ^ i ≤ d.length + i := hd.symm ▸ two_pow_le_of_lt_K hi

theorem length_insertPlaceholders_eq_M : (insertPlaceholders N d).length = M N := by
  rw [length_insertPlaceholders, hd, M_eq]

theorem length_encodeBits : (encodeBits N d).length = M N := by
  rw [encodeBits, length_overwriteParity, length_insertPlaceholders_eq_M hd]

/-- R123(a): at position `2^i`, where row `i` alone has a 1 among the parity columns, the overwrite writes the row's sum over
a 0, which makes that sum 0. -/
theorem syndromeValue_encodeBits : syndromeValue N (encodeBits N d) = 0 := by
  have len := length_insertPlaceholders_eq_M hd
  have fits (i : Nat) (hi : i < K N) : 2 ^ i ≤ (insertPlaceholders N d).length := len ▸ (two_pow_lt_M hi).le
  refine Nat.eq_of_testBit_eq fun i => ?_
  rw [Nat.zero_testBit]
  by_cases hi : i < K N
  · have differ := xorAll_rowTerms_differ (N := N) (v := encodeBits N d) (w := insertPlaceholders N d) i
      Nat.one_le_two_pow (two_pow_lt_M hi).le fun j hj hbit =>
        bitAt_writeLow_of_ne fits fun k _ hk => hj (by rw [hk, bit_two_pow] at hbit; rw [hk, of_decide_eq_true hbit])
    have written : bitAt (encodeBits N d) (2 ^ i) = xorAll (rowTerms N (insertPlaceholders N d) i) :=
      (bitAt_writeLow fits hi).trans (mulVec_getD len hi)
    have placeholder : bitAt (insertPlaceholders N d) (2 ^ i) = false :=
      bitAt_placeLow (fun k => two_pow_le_of_length hd) hi
    rw [testBit_syndromeValue (length_encodeBits hd), differ, written, placeholder, bit_two_pow, decide_eq_true rfl,
      Bool.true_and, Bool.xor_false, Bool.xor_self]
  · exact Nat.testBit_lt_two_pow ((lsbValue_lt _).trans_le
      (Nat.pow_le_pow_right (by decide) (by simpa using hi)))

/-- R123(b): stripping a codeword gives its data word. -/
theorem stripParity_encodeBits : stripParity N (encodeBits N d) = d := by
  rw [stripParity_eq, encodeBits, overwriteParity_eq, stripLow_writeLow]
  exact stripLow_placeLow fun i => two_pow_le_of_length hd

end

/-- R145: position `M` holds the last data bit. -/
theorem stripParity_flipAt_M {N : Nat} {c : Bits} (h1 : 1 ≤ N) (hc : (stripParity N c).length = N) :
    stripParity N (flipAt c (M N)) = flipAt (stripParity N c) N := by
  have write (b : Bool) : stripParity N (setAt c b (M N)) = setAt (stripParity N c) b N :=
    (stripLow_setAt b fun i => two_pow_lt_M).trans (congrArg _ (Nat.add_sub_cancel N (K N)))
  have last : bitAt (stripParity N c) N = bitAt c (M N) := by
    rw [← setAt_bitAt c (p := M N) (by rw [M_eq]; omega), write, bitAt_setAt _ _ _ h1 hc.ge, if_pos rfl]
    rw [setAt_bitAt c (by rw [M_eq]; omega)]
  rw [flipAt, write, flipAt, last]

end Sys2Proof.Machine
end

section
/-! SUPPORT. DECODE of a codeword, as it is and with one position inverted (R123, R145). -/

namespace Sys2Proof.Machine

open Layout

section
variable (N : Nat) (D : BitVec N)

theorem length_dataBits : (dataBits D).length = N := length_ofPort D

theorem length_codeBits (C : BitVec (M N)) : (codeBits C).length = M N := length_ofPort C

theorem codeBits_toPort {c : Bits} (hc : c.length = M N) : codeBits (toPort (M N) c) = c := ofPort_toPort hc

/-- The codeword port carries ENCODE's codeword. -/
theorem codeBits_encodeResponse : codeBits (encodeResponse N D).code = encodeBits N (dataBits D) :=
  codeBits_toPort N (length_encodeBits (length_dataBits N D))

theorem codeBits_invert (C : BitVec (M N)) (p : Nat) : codeBits (invert N C [p]) = flipAt (codeBits C) p :=
  codeBits_toPort N (by simp [length_codeBits])

/-- A word whose bits have syndrome 0 is passed through as CLEAN. -/
theorem decodeResponse_of_clean {C : BitVec (M N)} (h : syndromeValue N (codeBits C) = 0) :
    decodeResponse N C
      = { op := true, code := C, data := toPort N (stripParity N (codeBits C)), status := Status.clean.code
          syndrome := 0 } := by
  have clean : classify N (syndromeValue N (codeBits C)) = .clean := by rw [h]; rfl
  have same : correctBits N (codeBits C) = codeBits C := by rw [correctBits, clean]
  have syndrome : toLsbPort (K N) (mulVec N (codeBits C)) = 0 := congrArg (BitVec.ofNat (K N)) h
  rw [decodeResponse, same, clean, syndrome, codeBits, toPort_ofPort]

variable {N} in
/-- A word whose syndrome value is below `M` has that position inverted. -/
theorem decodeResponse_of_corrected {C : BitVec (M N)} {s : Nat} (h : syndromeValue N (codeBits C) = s) (h0 : s ≠ 0)
    (hs : s < M N) :
    decodeResponse N C
      = { op := true, code := toPort (M N) (flipAt (codeBits C) s)
          data := toPort N (stripParity N (flipAt (codeBits C) s)), status := Status.corrected.code
          syndrome := BitVec.ofNat (K N) s } := by
  have corrected : classify N (syndromeValue N (codeBits C)) = .corrected := by rw [h, classify, if_neg h0, if_pos hs]
  have flipped : correctBits N (codeBits C) = flipAt (codeBits C) s := by rw [correctBits, corrected, h]
  have syndrome : toLsbPort (K N) (mulVec N (codeBits C)) = BitVec.ofNat (K N) s := congrArg (BitVec.ofNat (K N)) h
  rw [decodeResponse, flipped, corrected, syndrome]

variable {N} in
/-- A word whose syndrome value is `M` or more is passed through as UNCORRECTABLE. -/
theorem decodeResponse_of_uncorrectable {C : BitVec (M N)} {s : Nat} (h : syndromeValue N (codeBits C) = s) (h0 : s ≠ 0)
    (hs : M N ≤ s) :
    decodeResponse N C
      = { op := true, code := C, data := toPort N (stripParity N (codeBits C)), status := Status.uncorrectable.code
          syndrome := BitVec.ofNat (K N) s } := by
  have uncorrectable : classify N (syndromeValue N (codeBits C)) = .uncorrectable := by
    rw [h, classify, if_neg h0, if_neg (Nat.not_lt.mpr hs)]
  have same : correctBits N (codeBits C) = codeBits C := by rw [correctBits, uncorrectable]
  have syndrome : toLsbPort (K N) (mulVec N (codeBits C)) = BitVec.ofNat (K N) s := congrArg (BitVec.ofNat (K N)) h
  rw [decodeResponse, same, uncorrectable, syndrome, codeBits, toPort_ofPort]

theorem toPort_stripParity_encodeBits : toPort N (stripParity N (encodeBits N (dataBits D))) = D := by
  rw [stripParity_encodeBits (length_dataBits N D), dataBits, toPort_ofPort]

/-- R123: DECODE of ENCODE's codeword. -/
theorem decodeResponse_encodeResponse :
    decodeResponse N (encodeResponse N D).code
      = { op := true, code := (encodeResponse N D).code, data := D, status := Status.clean.code, syndrome := 0 } := by
  have bits := codeBits_encodeResponse N D
  rw [decodeResponse_of_clean N (by rw [bits, syndromeValue_encodeBits (length_dataBits N D)]), bits,
    toPort_stripParity_encodeBits]

/-- One inverted position is the syndrome value. -/
theorem syndromeValue_invert {p : Nat} (h1 : 1 ≤ p) (hp : p ≤ M N) :
    syndromeValue N (codeBits (invert N (encodeResponse N D).code [p])) = p := by
  have hd := length_dataBits N D
  rw [codeBits_invert, codeBits_encodeResponse, syndromeValue_flipAt (length_encodeBits hd) h1 hp,
    syndromeValue_encodeBits hd, Nat.zero_xor]

/-- R145, one position before the last inverted: it is put right. -/
theorem decodeResponse_invert_of_lt {p : Nat} (h1 : 1 ≤ p) (hp : p < M N) :
    decodeResponse N (invert N (encodeResponse N D).code [p])
      = { op := true, code := (encodeResponse N D).code, data := D, status := Status.corrected.code
          syndrome := BitVec.ofNat (K N) p } := by
  have restored : flipAt (codeBits (invert N (encodeResponse N D).code [p])) p = encodeBits N (dataBits D) := by
    rw [codeBits_invert, codeBits_encodeResponse,
      flipAt_flipAt _ h1 ((length_encodeBits (length_dataBits N D)).symm ▸ hp.le)]
  rw [decodeResponse_of_corrected (syndromeValue_invert N D h1 hp.le) (by omega) hp, restored,
    toPort_stripParity_encodeBits]
  rfl

/-- R145, position `M` inverted: the word is passed through, with the last data bit inverted. -/
theorem decodeResponse_invert_M (h1 : 1 ≤ N) :
    decodeResponse N (invert N (encodeResponse N D).code [M N])
      = { op := true, code := invert N (encodeResponse N D).code [M N], data := toPort N (flipAt (dataBits D) N)
          status := Status.uncorrectable.code, syndrome := BitVec.ofNat (K N) (M N) } := by
  have hd := length_dataBits N D
  have hM : 1 ≤ M N := h1.trans (M_eq N ▸ Nat.le_add_right N (K N))
  have stripped : stripParity N (codeBits (invert N (encodeResponse N D).code [M N])) = flipAt (dataBits D) N := by
    have strip := stripParity_encodeBits hd
    rw [codeBits_invert, codeBits_encodeResponse, stripParity_flipAt_M h1 (strip.symm ▸ hd), strip]
  rw [decodeResponse_of_uncorrectable (syndromeValue_invert N D hM le_rfl) (by omega) le_rfl, stripped]

/-- That data word is another one. -/
theorem flipAt_dataBits_ne (h1 : 1 ≤ N) : toPort N (flipAt (dataBits D) N) ≠ D := by
  intro h
  have hd := length_dataBits N D
  have bits : flipAt (dataBits D) N = dataBits D := by
    rw [← ofPort_toPort (w := N) (L := flipAt (dataBits D) N) (by rw [length_flipAt, hd]), h]
    rfl
  have last := bitAt_flipAt (dataBits D) N h1 hd.ge
  rw [bits, if_pos rfl] at last
  exact Bool.not_ne_self _ last.symm

end

end Sys2Proof.Machine
end

section
/-! SUPPORT. The runs of the host's framing (R52): what `chunks` makes of a list, by whole runs. -/

namespace Sys2Proof.Machine

section
variable {α β : Type} {c : Nat}

@[simp] theorem chunks_nil (c : Nat) : chunks c ([] : List α) = [] := rfl

theorem length_drop_cons_le (hc : 0 < c) (x : α) (L : List α) : ((x :: L).drop c).length ≤ L.length := by
  rw [List.length_drop, List.length_cons]
  omega

/-- Any fuel from the length on gives the same runs. -/
theorem chunksUpTo_eq_of_le (hc : 0 < c) {f g : Nat} {L : List α} (hf : L.length ≤ f) (hg : L.length ≤ g) :
    chunksUpTo c f L = chunksUpTo c g L := by
  induction f generalizing g L with
  | zero => rw [List.eq_nil_of_length_eq_zero (Nat.le_zero.mp hf)]; cases g <;> rfl
  | succ f ih =>
    cases L with
    | nil => cases g <;> rfl
    | cons x L =>
      cases g with
      | zero => exact absurd hg (Nat.not_succ_le_zero _)
      | succ g =>
        have shorter := length_drop_cons_le hc x L
        rw [chunksUpTo, chunksUpTo, ih (shorter.trans (Nat.le_of_succ_le_succ hf))
          (shorter.trans (Nat.le_of_succ_le_succ hg))]

/-- The first run, then the runs of the rest. -/
theorem chunks_of_ne_nil (hc : 0 < c) {L : List α} (hL : L ≠ []) : chunks c L = L.take c :: chunks c (L.drop c) := by
  cases L with
  | nil => exact absurd rfl hL
  | cons x L =>
    have rest : chunks c ((x :: L).drop c) = chunksUpTo c L.length ((x :: L).drop c) :=
      chunksUpTo_eq_of_le hc le_rfl (length_drop_cons_le hc x L)
    rw [rest]
    rfl

/-- A list and its runs are built a run at a time. -/
theorem chunks_induction (hc : 0 < c) {P : List α → List (List α) → Prop} (nil : P [] [])
    (cons : ∀ L, L ≠ [] → P (L.drop c) (chunks c (L.drop c)) → P L (L.take c :: chunks c (L.drop c))) (L : List α) :
    P L (chunks c L) := by
  induction h : L.length using Nat.strong_induction_on generalizing L with
  | _ n ih =>
    by_cases hL : L = []
    · subst hL
      exact nil
    · have pos := List.length_pos_of_ne_nil hL
      rw [chunks_of_ne_nil hc hL]
      exact cons L hL (ih _ (by rw [List.length_drop]; omega) _ rfl)

theorem flatten_chunks (hc : 0 < c) (L : List α) : (chunks c L).flatten = L :=
  chunks_induction hc (P := fun L Ls => Ls.flatten = L) rfl
    (fun L _ ih => by rw [List.flatten_cons, ih, List.take_append_drop]) L

/-- No run is longer than `c`. -/
theorem length_le_of_mem_chunks (hc : 0 < c) (L : List α) : ∀ G ∈ chunks c L, G.length ≤ c :=
  chunks_induction hc (P := fun _ Ls => ∀ G ∈ Ls, G.length ≤ c) (fun _ h => absurd h List.not_mem_nil)
    (fun L _ ih => List.forall_mem_cons.mpr ⟨List.length_take_le c L, ih⟩) L

theorem mem_of_mem_chunks (hc : 0 < c) {L G : List α} (hG : G ∈ chunks c L) {x : α} (hx : x ∈ G) : x ∈ L := by
  rw [← flatten_chunks hc L]
  exact List.mem_flatten_of_mem hG hx

/-- The number of runs. -/
theorem length_chunks (hc : 0 < c) (L : List α) : (chunks c L).length = (L.length + (c - 1)) / c := by
  refine chunks_induction hc (P := fun L Ls => Ls.length = (L.length + (c - 1)) / c) ?_ (fun L hL ih => ?_) L
  · rw [List.length_nil, List.length_nil, Nat.zero_add, Nat.div_eq_of_lt (by omega)]
  · have pos := List.length_pos_of_ne_nil hL
    rw [List.length_cons, ih, List.length_drop]
    by_cases h : c ≤ L.length
    · rw [show L.length + (c - 1) = L.length - c + (c - 1) + c by omega, Nat.add_div_right _ hc]
    · rw [Nat.sub_eq_zero_of_le (by omega), Nat.div_eq_of_lt (by omega),
        Nat.div_eq_of_lt_le (k := 1) (by omega) (by omega)]

/-- A run of exactly `c` in front is a run. -/
theorem chunks_append (hc : 0 < c) {A : List α} (hA : A.length = c) (B : List α) : chunks c (A ++ B) = A :: chunks c B := by
  have nonempty : A ++ B ≠ [] := List.append_ne_nil_of_left_ne_nil (List.ne_nil_of_length_pos (hA.symm ▸ hc)) B
  rw [chunks_of_ne_nil hc nonempty, List.take_left' hA, List.drop_left' hA]

theorem chunks_of_length_le {L : List α} (hL : L ≠ []) (h : L.length ≤ c) : chunks c L = [L] := by
  have pos := List.length_pos_of_ne_nil hL
  rw [chunks_of_ne_nil (by omega) hL, List.take_of_length_le h, List.drop_of_length_le h, chunks_nil]

/-- Runs of length `c` put end to end are the runs again, whatever follows. -/
theorem chunks_flatten_append (hc : 0 < c) {Ls : List (List α)} (h : ∀ A ∈ Ls, A.length = c) (B : List α) :
    chunks c (Ls.flatten ++ B) = Ls ++ chunks c B := by
  induction Ls with
  | nil => rfl
  | cons A Ls ih =>
    obtain ⟨hA, hLs⟩ := List.forall_mem_cons.mp h
    rw [List.flatten_cons, List.append_assoc, chunks_append hc hA, ih hLs, List.cons_append]

theorem chunks_flatMap (hc : 0 < c) (L : List β) {f : β → List α} (h : ∀ x ∈ L, (f x).length = c) :
    chunks c (L.flatMap f) = L.map f := by
  simpa [List.flatMap_def] using chunks_flatten_append hc (List.forall_mem_map.mpr h) []

/-- When `c` divides the length, every run has length `c`. -/
theorem length_of_mem_chunks (hc : 0 < c) (L : List α) : c ∣ L.length → ∀ G ∈ chunks c L, G.length = c := by
  refine chunks_induction hc (P := fun L Ls => c ∣ L.length → ∀ G ∈ Ls, G.length = c)
    (fun _ _ h => absurd h List.not_mem_nil) (fun L hL ih dvd => ?_) L
  have long : c ≤ L.length := Nat.le_of_dvd (List.length_pos_of_ne_nil hL) dvd
  exact List.forall_mem_cons.mpr ⟨List.length_take_of_le long, ih (by rw [List.length_drop]; exact Nat.dvd_sub dvd dvd_rfl)⟩

/-- Whole runs in front are runs. -/
theorem chunks_append_of_dvd (hc : 0 < c) {A : List α} (hA : c ∣ A.length) (B : List α) :
    chunks c (A ++ B) = chunks c A ++ chunks c B := by
  rw [← chunks_flatten_append hc (length_of_mem_chunks hc A hA), flatten_chunks hc]

end

end Sys2Proof.Machine
end

section
/-! SUPPORT. Groups of bytes as data words and back (R44, R52, R53, O46). -/

namespace Sys2Proof

theorem msbValue_append_bits (A B : Bits) : msbValue (A ++ B) = msbValue A * 2 ^ B.length + msbValue B := by
  induction B using List.reverseRecOn with
  | nil => simp [msbValue]
  | append_singleton B b ih =>
    rw [← List.append_assoc, msbValue_append, ih, msbValue_append, List.length_append, List.length_singleton, pow_succ]
    ring

end Sys2Proof

namespace Sys2Proof.Machine

open Layout

@[simp] theorem length_byteBits (B : Nat) : (byteBits B).length = 8 := length_ofPort _

/-- R44: most significant bit first. -/
theorem byteBits_eq (B : Nat) : byteBits B = (List.range 8).map fun k => B.testBit (7 - k) := by
  simp [byteBits, ofPort, List.range', List.range_succ, BitVec.getLsbD_ofNat]

theorem byteBits_zero : byteBits 0 = List.replicate 8 false := by decide

theorem msbValue_byteBits {B : Nat} (h : B < 256) : msbValue (byteBits B) = B := by
  rw [byteBits, msbValue_ofPort, BitVec.toNat_ofNat, Nat.mod_eq_of_lt h]

theorem byteBits_msbValue {b : Bits} (h : b.length = 8) : byteBits (msbValue b) = b := ofPort_toPort h

theorem length_flatMap_byteBits (G : List Nat) : (G.flatMap byteBits).length = 8 * G.length := by
  simp [List.length_flatMap, Nat.mul_comm]

/-- R44: the first byte is the most significant. -/
theorem msbValue_flatMap_byteBits {G : List Nat} (h : ∀ B ∈ G, B < 256) :
    msbValue (G.flatMap byteBits) = Nat.ofDigits 256 G.reverse := by
  induction G with
  | nil => rfl
  | cons B G ih =>
    obtain ⟨hB, hG⟩ := List.forall_mem_cons.mp h
    rw [List.flatMap_cons, msbValue_append_bits, msbValue_byteBits hB, ih hG, length_flatMap_byteBits, pow_mul,
      List.reverse_cons, Nat.ofDigits_append, List.length_reverse, Nat.ofDigits_singleton]
    ring

/-- A group with zero bytes put in front, up to `c` bytes. -/
def padGroup (c : Nat) (G : List Nat) : List Nat := List.replicate (c - G.length) 0 ++ G

theorem padGroup_of_length {c : Nat} {G : List Nat} (h : G.length = c) : padGroup c G = G := by
  simp [padGroup, h]

theorem length_padGroup {c : Nat} {G : List Nat} (h : G.length ≤ c) : (padGroup c G).length = c := by
  simp [padGroup, h]

/-- R52: the zero bits in front of a short group are those of the zero bytes. -/
theorem groupBits_eq (c : Nat) (G : List Nat) : groupBits (8 * c) G = (padGroup c G).flatMap byteBits := by
  rw [groupBits, padGroup, List.flatMap_append, length_flatMap_byteBits, List.flatMap_replicate, byteBits_zero,
    List.flatten_replicate_replicate, ← Nat.mul_sub, Nat.mul_comm]

/-- Settles O46: a group that fills its block gets no padding. -/
theorem hostByteOrder : Obligations.HostByteOrder := by
  intro G hG
  have bits : groupBits (8 * G.length) G = G.flatMap byteBits := by rw [groupBits_eq, padGroup_of_length rfl]
  exact ⟨by rw [bits, length_flatMap_byteBits], by rw [bits, msbValue_flatMap_byteBits hG], fun B _ => byteBits_eq B⟩

/-- The data word of a group's ENCODE command. -/
def groupWord (N : Nat) (G : List Nat) : BitVec N := toPort N (groupBits N G)

/-- The bytes of a data word, first bit most significant. -/
def wordBytes {N : Nat} (D : BitVec N) : List Nat := (chunks 8 (dataBits D)).map msbValue

theorem dataBytes_eq {N : Nat} (r : Response N) : dataBytes r = wordBytes r.data := rfl

section
variable {N : Nat} (whole : wholeBytes N)
include whole

theorem wholeBytes.mul_div : 8 * (N / 8) = N := Nat.mul_div_cancel' (Nat.dvd_of_mod_eq_zero whole.1)

theorem wholeBytes.div_pos : 0 < N / 8 := by
  have := whole.mul_div
  have := whole.2
  omega

theorem wholeBytes.M_pos : 0 < M N := whole.2.trans_le (M_eq N ▸ Nat.le_add_right N (K N))

/-- A group's word has the group's bytes, after the zero bytes put in front. -/
theorem wordBytes_groupWord {G : List Nat} (hlen : G.length ≤ N / 8) (hG : ∀ B ∈ G, B < 256) :
    wordBytes (groupWord N G) = padGroup (N / 8) G := by
  have bits : groupBits N G = (padGroup (N / 8) G).flatMap byteBits := by
    rw [← groupBits_eq, whole.mul_div]
  have word : dataBits (groupWord N G) = groupBits N G :=
    ofPort_toPort (by rw [bits, length_flatMap_byteBits, length_padGroup hlen, whole.mul_div])
  have small : ∀ B ∈ padGroup (N / 8) G, B < 256 := fun B hB =>
    (List.mem_append.mp hB).elim (fun h => by simp [List.eq_of_mem_replicate h]) (hG B)
  rw [wordBytes, word, bits, chunks_flatMap (by decide) _ fun B _ => length_byteBits B, List.map_map]
  exact (List.map_congr_left fun B hB => msbValue_byteBits (small B hB)).trans (List.map_id' _)

theorem length_wordBytes (D : BitVec N) : (wordBytes D).length = N / 8 := by
  have := whole.mul_div
  rw [wordBytes, List.length_map, length_chunks (by decide), length_dataBits]
  omega

/-- The bits of a word's bytes are the word's. -/
theorem flatMap_byteBits_wordBytes (D : BitVec N) : (wordBytes D).flatMap byteBits = dataBits D := by
  have eights : ∀ b ∈ chunks 8 (dataBits D), b.length = 8 :=
    length_of_mem_chunks (by decide) _ (by rw [length_dataBits]; exact Nat.dvd_of_mod_eq_zero whole.1)
  have back : (chunks 8 (dataBits D)).map (byteBits ∘ msbValue) = chunks 8 (dataBits D) :=
    (List.map_congr_left fun b hb => byteBits_msbValue (eights b hb)).trans (List.map_id' _)
  rw [wordBytes, List.flatMap_def, List.map_map, back, flatten_chunks (by decide)]

theorem wordBytes_injective {D D' : BitVec N} (h : wordBytes D = wordBytes D') : D = D' := by
  have bits : dataBits D = dataBits D' := by
    rw [← flatMap_byteBits_wordBytes whole, h, flatMap_byteBits_wordBytes whole]
  rw [← toPort_ofPort D, ← toPort_ofPort D']
  exact congrArg (toPort N) bits

/-- Different words give different bytes. -/
theorem flatMap_wordBytes_injective {Ds Ds' : List (BitVec N)} (h : Ds.flatMap wordBytes = Ds'.flatMap wordBytes) :
    Ds = Ds' := by
  have runs := congrArg (chunks (N / 8)) h
  rw [chunks_flatMap whole.div_pos _ fun D _ => length_wordBytes whole D,
    chunks_flatMap whole.div_pos _ fun D _ => length_wordBytes whole D] at runs
  exact List.map_injective_iff.mpr (fun _ _ => wordBytes_injective whole) runs

end

end Sys2Proof.Machine
end

section
/-! SUPPORT. The encoded string as the text of a list of codewords, and what the host's decoder makes of such a text (R52,
R53); from it the length of the encoded string (O48) and the tail of a short group (O49). -/

namespace Sys2Proof.Machine

open Layout

section
variable {N : Nat}

/-- The characters of a list of words, each from position 1 to `M`. -/
def wordsText (Cs : List (BitVec (M N))) : List Char := Cs.flatMap fun C => (codeBits C).map bitChar

/-- The codewords of a list of data words. -/
def codewords (Ds : List (BitVec N)) : List (BitVec (M N)) := Ds.map fun D => (encodeResponse N D).code

/-- The data words of the host's ENCODE commands. -/
def groupWords (N : Nat) (T : List Nat) : List (BitVec N) := (chunks (N / 8) T).map (groupWord N)

theorem bitChar_eq_one (b : Bool) : (bitChar b == '1') = b := by cases b <;> rfl

theorem bitChar_binary (b : Bool) : bitChar b = '0' ∨ bitChar b = '1' := by cases b <;> decide

theorem map_bitChar_eq_one (L : Bits) : (L.map bitChar).map (· == '1') = L := by
  simp [Function.comp_def, bitChar_eq_one]

theorem length_codeChars (C : BitVec (M N)) : ((codeBits C).map bitChar).length = M N := by simp [length_codeBits]

theorem length_wordsText (Cs : List (BitVec (M N))) : (wordsText Cs).length = Cs.length * M N := by
  simp [wordsText, List.length_flatMap, length_codeBits]

theorem wordsText_binary (Cs : List (BitVec (M N))) : ∀ x ∈ wordsText Cs, x = '0' ∨ x = '1' := by
  intro x hx
  obtain ⟨C, -, hx⟩ := List.mem_flatMap.mp hx
  obtain ⟨b, -, rfl⟩ := List.mem_map.mp hx
  exact bitChar_binary b

/-- The host reads one DECODE command off the characters of each word. -/
theorem decodeCommands_wordsText (hM : 0 < M N) (Cs : List (BitVec (M N))) :
    decodeCommands N (wordsText Cs) = Cs.map fun C => .decode C.toNat := by
  rw [decodeCommands, wordsText, chunks_flatMap hM _ fun C _ => length_codeChars C, List.map_map]
  refine List.map_congr_left fun C _ => ?_
  rw [Function.comp_apply, map_bitChar_eq_one, codeBits, msbValue_ofPort]

/-- What the host reports of a block. -/
def Response.report (r : Response N) : BitVec 2 × BitVec (K N) := (r.status, r.syndrome)

theorem collectText_eq (rs : List (Response N)) :
    collectText rs = ((rs.map Response.data).flatMap wordBytes, rs.map Response.report) := by
  rw [List.flatMap_map]
  rfl

end

section
variable {N : Nat} (whole : wholeBytes N)
include whole

/-- The host's decoder answers a text of words with what DECODE answers each. -/
theorem hostDecode_wordsText (Cs : List (BitVec (M N))) :
    hostDecode N (wordsText Cs) = .ok (collectText (Cs.map (decodeResponse N))) := by
  have responses : (decodeCommands N (wordsText Cs)).map (respond N) = Cs.map (decodeResponse N) := by
    rw [decodeCommands_wordsText whole.M_pos, List.map_map]
    refine List.map_congr_left fun C _ => ?_
    rw [Function.comp_apply, respond_decode, BitVec.ofNat_toNat, BitVec.setWidth_eq]
  obtain ⟨short, -⟩ | ⟨-, ⟨x, hx, h0, h1⟩, -⟩ | ⟨-, -, -, hd⟩ | ⟨-, -, notWhole, -⟩ :=
    hostDecode_cases N (wordsText Cs) (NonByteFraming.refuse N)
  · exact absurd (by rw [length_wordsText, Nat.mul_mod_left]) short
  · exact absurd (wordsText_binary Cs x hx) (not_or.mpr ⟨h0, h1⟩)
  · rw [hd, responses]
  · exact absurd whole notWhole

/-- The host's encoder gives the text of its groups' codewords. -/
theorem hostEncode_eq {T : List Nat} (hT : ∀ B ∈ T, B < 256) :
    hostEncode N T = .ok (wordsText (codewords (groupWords N T))) := by
  obtain ⟨⟨B, hB, wide⟩, -⟩ | ⟨-, -, he⟩ | ⟨-, notWhole, -⟩ := hostEncode_cases N T (NonByteFraming.refuse N)
  · exact absurd (hT B hB) (Nat.not_lt.mpr wide)
  · rw [he, encodeCommands, wordsText, codewords, groupWords, List.flatMap_map, List.flatMap_map, List.flatMap_map]
    rfl
  · exact absurd whole notWhole

theorem length_groupWords (T : List Nat) : (groupWords N T).length = (8 * T.length + (N - 1)) / N := by
  have eight := whole.mul_div
  have pos := whole.div_pos
  have scaled : 8 * T.length + (N - 1) = 8 * (T.length + (N / 8 - 1)) + 7 := by omega
  conv_rhs => rw [scaled, ← eight, ← Nat.div_div_eq_div_mul, Nat.mul_add_div (by decide), Nat.add_zero,
    Nat.mul_div_cancel_left _ (by decide)]
  rw [groupWords, List.length_map, length_chunks pos]

/-- The bytes of the groups' words are the groups, short ones after zero bytes. -/
theorem flatMap_wordBytes_groupWords {T : List Nat} (hT : ∀ B ∈ T, B < 256) :
    (groupWords N T).flatMap wordBytes = ((chunks (N / 8) T).map (padGroup (N / 8))).flatten := by
  rw [groupWords, List.flatMap_def, List.map_map]
  refine congrArg List.flatten (List.map_congr_left fun G hG => ?_)
  exact wordBytes_groupWord whole (length_le_of_mem_chunks whole.div_pos T G hG)
    fun B hB => hT B (mem_of_mem_chunks whole.div_pos hG hB)

end

section
variable {N : Nat} (Ds : List (BitVec N))

/-- DECODE of codewords gives their data words back. -/
theorem map_data_codewords : ((codewords Ds).map (decodeResponse N)).map Response.data = Ds := by
  rw [codewords, List.map_map, List.map_map]
  refine (List.map_congr_left fun D _ => ?_).trans (List.map_id' Ds)
  rw [Function.comp_apply, Function.comp_apply, decodeResponse_encodeResponse]

/-- It reports each of them CLEAN. -/
theorem map_report_codewords : ((codewords Ds).map (decodeResponse N)).map Response.report
    = List.replicate Ds.length (Status.clean.code, 0) := by
  rw [codewords, List.map_map, List.map_map, ← List.map_const']
  refine List.map_congr_left fun D _ => ?_
  rw [Function.comp_apply, Function.comp_apply, decodeResponse_encodeResponse]
  rfl

variable {Ds} in
/-- The host's decoder gives the bytes of the data words back from the unchanged text of their codewords. -/
theorem hostDecode_codewords (whole : wholeBytes N) :
    hostDecode N (wordsText (codewords Ds))
      = .ok (Ds.flatMap wordBytes, List.replicate Ds.length (Status.clean.code, 0)) := by
  rw [hostDecode_wordsText whole, collectText_eq, map_data_codewords, map_report_codewords]

variable {Ds} in
/-- With another word in place of one codeword, that block's data and report are the word's. -/
theorem hostDecode_codewords_set (whole : wholeBytes N) (i : Nat) (C : BitVec (M N)) :
    hostDecode N (wordsText ((codewords Ds).set i C))
      = .ok ((Ds.set i (decodeResponse N C).data).flatMap wordBytes,
          (List.replicate Ds.length (Status.clean.code, 0)).set i (decodeResponse N C).report) := by
  rw [hostDecode_wordsText whole, collectText_eq, List.map_set, List.map_set, List.map_set, map_data_codewords,
    map_report_codewords]

end

/-- Settles O48: one codeword of `M` characters for each group. -/
theorem hostEncodedLength : Obligations.HostEncodedLength := by
  intro N T whole hT
  exact ⟨_, hostEncode_eq whole hT, by rw [length_wordsText, codewords, List.length_map, length_groupWords whole]⟩

/-! The runs of a text, padded and put end to end. -/

section
variable {c : Nat} (hc : 0 < c) {T : List Nat}
include hc

theorem flatten_padGroup_chunks_of_dvd (h : c ∣ T.length) : ((chunks c T).map (padGroup c)).flatten = T := by
  have none : (chunks c T).map (padGroup c) = chunks c T :=
    (List.map_congr_left fun G hG => padGroup_of_length (length_of_mem_chunks hc T h G hG)).trans (List.map_id' _)
  rw [none, flatten_chunks hc]

/-- R56: the whole groups, then the short one after its zero bytes. -/
theorem flatten_padGroup_chunks_of_short {A B : List Nat} (hA : c ∣ A.length) (hB : B ≠ []) (hlt : B.length < c) :
    ((chunks c (A ++ B)).map (padGroup c)).flatten = A ++ List.replicate (c - B.length) 0 ++ B := by
  rw [chunks_append_of_dvd hc hA, chunks_of_length_le hB hlt.le, List.map_append, List.flatten_append,
    flatten_padGroup_chunks_of_dvd hc hA, List.map_singleton, List.flatten_singleton, padGroup, List.append_assoc]

end

/-- Settles O49: the bytes before the last `L mod (N/8)` are whole groups. -/
theorem hostShortFinalGroup : Obligations.HostShortFinalGroup := by
  intro N T whole hT short
  have pos := whole.div_pos
  set w := T.length - T.length % (N / 8) with hw
  have wle : w ≤ T.length := Nat.sub_le _ _
  have lenA : (T.take w).length = w := List.length_take_of_le wle
  have lenB : (T.drop w).length = T.length % (N / 8) := by
    rw [List.length_drop, hw, Nat.sub_sub_self (Nat.mod_le _ _)]
  have bytes := flatten_padGroup_chunks_of_short pos (A := T.take w) (B := T.drop w)
    (lenA.symm ▸ Nat.dvd_sub_mod _) (fun h => short (by rw [← lenB, h, List.length_nil])) (lenB ▸ Nat.mod_lt _ pos)
  rw [List.take_append_drop, lenB] at bytes
  have decoded := hostDecode_codewords whole (Ds := groupWords N T)
  rw [flatMap_wordBytes_groupWords whole hT, bytes] at decoded
  exact ⟨_, _, hostEncode_eq whole hT, decoded⟩

end Sys2Proof.Machine
end

section
/-! SUPPORT. One inverted character of an encoded string (R57, O50): it inverts one position of one block's word, and what
DECODE answers that word decides the host's text. -/

namespace Sys2Proof.Machine

open Layout

/-- The string with the character at `q`, counted from 0, inverted. -/
def flipChar (E : List Char) (q : Nat) : List Char := E.set q (bitChar (E.getD q '0' != '1'))

theorem flipChar_append_left {A : List Char} {q : Nat} (h : q < A.length) (B : List Char) :
    flipChar (A ++ B) q = flipChar A q ++ B := by
  rw [flipChar, List.getD_append _ _ _ _ h, List.set_append_left _ _ h, flipChar]

theorem flipChar_append_right {A : List Char} {q : Nat} (h : A.length ≤ q) (B : List Char) :
    flipChar (A ++ B) q = A ++ flipChar B (q - A.length) := by
  rw [flipChar, List.getD_append_right _ _ _ _ h, List.set_append_right _ _ h, flipChar]

/-- In the text of a bit list it is the inverted position. -/
theorem flipChar_map_bitChar (L : Bits) (q : Nat) (hq : q < L.length) :
    flipChar (L.map bitChar) q = (flipAt L (q + 1)).map bitChar := by
  have inverted : (bitChar L[q] != '1') = !L[q] := by cases L[q] <;> rfl
  simp [flipChar, flipAt, setAt, hq, inverted, List.map_set]

section
variable {N : Nat}

/-- In the text of a list of words it is position `q mod M + 1` of word `q / M`. -/
theorem flipChar_wordsText {Cs : List (BitVec (M N))} {q : Nat} {C : BitVec (M N)} (hM : 0 < M N)
    (hC : Cs[q / M N]? = some C) :
    flipChar (wordsText Cs) q = wordsText (Cs.set (q / M N) (invert N C [q % M N + 1])) := by
  induction Cs generalizing q with
  | nil => simp at hC
  | cons C' Cs ih =>
    have first := length_codeChars C'
    rw [wordsText, List.flatMap_cons]
    by_cases hq : q < M N
    · rw [Nat.div_eq_of_lt hq, List.getElem?_cons_zero, Option.some_inj] at hC
      subst hC
      rw [flipChar_append_left (first.symm ▸ hq), flipChar_map_bitChar _ _ (by rwa [length_codeBits]), Nat.div_eq_of_lt hq,
        Nat.mod_eq_of_lt hq, List.set_cons_zero, wordsText, List.flatMap_cons, codeBits_invert]
    · have later : q / M N = (q - M N) / M N + 1 := Nat.div_eq_sub_div hM (Nat.le_of_not_lt hq)
      rw [later, List.getElem?_cons_succ] at hC
      rw [flipChar_append_right (first.symm ▸ Nat.le_of_not_lt hq), first, later, List.set_cons_succ,
        Nat.mod_eq_sub_mod (Nat.le_of_not_lt hq), wordsText, List.flatMap_cons]
      exact congrArg _ (ih hC)

variable (whole : wholeBytes N) {Ds : List (BitVec N)} {q : Nat} {D : BitVec N} (hD : Ds[q / M N]? = some D)
include whole hD

/-- What the host's decoder makes of the text of codewords with one character inverted. -/
theorem hostDecode_flipChar {r : Response N}
    (hr : decodeResponse N (invert N (encodeResponse N D).code [q % M N + 1]) = r) :
    hostDecode N (flipChar (wordsText (codewords Ds)) q)
      = .ok ((Ds.set (q / M N) r.data).flatMap wordBytes,
          (List.replicate Ds.length (Status.clean.code, 0)).set (q / M N) r.report) := by
  have word : (codewords Ds)[q / M N]? = some (encodeResponse N D).code := by rw [codewords, List.getElem?_map, hD]; rfl
  rw [flipChar_wordsText whole.M_pos word, hostDecode_codewords_set whole, hr]

/-- R57: an inverted position before the last is put right. -/
theorem hostDecode_flipChar_corrected (hq : q % M N + 1 < M N) :
    hostDecode N (flipChar (wordsText (codewords Ds)) q)
      = .ok (Ds.flatMap wordBytes, (List.replicate Ds.length (Status.clean.code, 0)).set (q / M N)
          (Status.corrected.code, BitVec.ofNat (K N) (q % M N + 1))) := by
  obtain ⟨hi, rfl⟩ := List.getElem?_eq_some_iff.mp hD
  have decoded := hostDecode_flipChar whole hD (decodeResponse_invert_of_lt N _ (Nat.le_add_left 1 _) hq)
  rwa [List.set_getElem_self] at decoded

/-- R57: an inverted position `M` is reported and changes the block's data, so the text's bytes. -/
theorem hostDecode_flipChar_uncorrectable (hq : q % M N + 1 = M N) :
    ∃ T' statuses, hostDecode N (flipChar (wordsText (codewords Ds)) q) = .ok (T', statuses) ∧
      T' ≠ Ds.flatMap wordBytes ∧ statuses[q / M N]? = some (Status.uncorrectable.code, BitVec.ofNat (K N) (M N)) := by
  obtain ⟨hi, -⟩ := List.getElem?_eq_some_iff.mp hD
  have answer := (congrArg (fun p => decodeResponse N (invert N (encodeResponse N D).code [p])) hq).trans
    (decodeResponse_invert_M N D whole.2)
  refine ⟨_, _, hostDecode_flipChar whole hD answer, fun same => ?_, ?_⟩
  · have block := congrArg (·[q / M N]?) (flatMap_wordBytes_injective whole same)
    rw [List.getElem?_set_self hi, hD, Option.some_inj] at block
    exact flipAt_dataBits_ne N D whole.2 block
  · rw [List.getElem?_set_self (by rwa [List.length_replicate])]
    rfl

end

/-- Settles O50: the encoded string is the text of the groups' codewords, and the bytes of the groups' words are the text. -/
theorem hostRoundTrip : Obligations.HostRoundTrip := by
  intro N T whole hT hwhole
  have blocks : (groupWords N T).length = 8 * T.length / N := by
    obtain ⟨k, hk⟩ := Nat.dvd_of_mod_eq_zero hwhole
    rw [length_groupWords whole, hk, Nat.mul_add_div whole.2, Nat.div_eq_of_lt (Nat.sub_lt whole.2 Nat.one_pos),
      Nat.mul_div_cancel_left k whole.2, Nat.add_zero]
  have bytes : (groupWords N T).flatMap wordBytes = T := by
    rw [flatMap_wordBytes_groupWords whole hT]
    refine flatten_padGroup_chunks_of_dvd whole.div_pos (Nat.dvd_of_mul_dvd_mul_left (k := 8) (by decide) ?_)
    exact whole.mul_div.symm ▸ Nat.dvd_of_mod_eq_zero hwhole
  refine ⟨_, hostEncode_eq whole hT, ?_, fun q hq => ?_⟩
  · rw [hostDecode_codewords whole, bytes, blocks]
  · have hi : q / M N < (groupWords N T).length := by
      rw [length_wordsText, codewords, List.length_map] at hq
      exact Nat.div_lt_of_lt_mul (Nat.mul_comm _ _ ▸ hq)
    have hD := List.getElem?_eq_getElem hi
    refine ⟨fun before => ?_, fun last => ?_⟩
    · have decoded := hostDecode_flipChar_corrected whole hD (by have := whole.M_pos; omega)
      rwa [bytes, blocks] at decoded
    · have decoded := hostDecode_flipChar_uncorrectable whole hD last
      rwa [bytes] at decoded

end Sys2Proof.Machine
end

section
/-! SUPPORT. The host's preconditions (R54, O47), from what `hostEncode_cases` and `hostDecode_cases` say. -/

namespace Sys2Proof.Machine

open Layout

section
variable {N : Nat} {other : NonByteFraming N} {E : List Char} {T : List Nat}

theorem hostDecode_of_length (h : E.length % M N ≠ 0) : hostDecode N E other = .error .notWholeCodewords := if_pos h

/-- Whichever precondition fails first, a character other than '0' and '1' is refused. -/
theorem hostDecode_of_not_binary (h : ∃ x, x ∈ E ∧ x ≠ '0' ∧ x ≠ '1') : ∃ e, hostDecode N E other = .error e := by
  obtain ⟨x, hx, h0, h1⟩ := h
  obtain ⟨-, hd⟩ | ⟨-, -, hd⟩ | ⟨-, binary, -⟩ | ⟨-, binary, -⟩ := hostDecode_cases N E other
  · exact ⟨_, hd⟩
  · exact ⟨_, hd⟩
  · exact absurd (binary x hx) (not_or.mpr ⟨h0, h1⟩)
  · exact absurd (binary x hx) (not_or.mpr ⟨h0, h1⟩)

theorem hostEncode_of_wide (h : ∃ B, B ∈ T ∧ 256 ≤ B) : hostEncode N T other = .error .wideCharacter :=
  if_pos (by simpa using h)

theorem hostEncode_default (hN : ¬ wholeBytes N) (h : ∀ B, B ∈ T → B < 256) :
    hostEncode N T = .error .notWholeBytes := by
  obtain ⟨⟨B, hB, wide⟩, -⟩ | ⟨-, whole, -⟩ | ⟨-, -, he⟩ := hostEncode_cases N T (NonByteFraming.refuse N)
  · exact absurd (h B hB) (Nat.not_lt.mpr wide)
  · exact absurd whole hN
  · exact he

theorem hostDecode_default (hN : ¬ wholeBytes N) (hL : E.length % M N = 0) (h : ∀ x, x ∈ E → x = '0' ∨ x = '1') :
    hostDecode N E = .error .notWholeBytes := by
  obtain ⟨short, -⟩ | ⟨-, ⟨x, hx, h0, h1⟩, -⟩ | ⟨-, -, whole, -⟩ | ⟨-, -, -, hd⟩ :=
    hostDecode_cases N E (NonByteFraming.refuse N)
  · exact absurd hL short
  · exact absurd (h x hx) (not_or.mpr ⟨h0, h1⟩)
  · exact absurd whole hN
  · exact hd

end

/-- Settles O47: each input either fails another precondition, or meets them all and is refused for its `N`. -/
theorem hostRefusals : Obligations.HostRefusals := by
  refine ⟨fun _ _ _ h => ⟨_, hostDecode_of_length h⟩, fun _ _ _ => hostDecode_of_not_binary,
    fun _ _ _ => hostEncode_of_wide, fun N hN => ?_⟩
  have notWhole : ¬ wholeBytes N := fun h => hN h.1
  refine ⟨fun T => ?_, fun E => ?_, fun _ => hostEncode_default notWhole, fun _ => hostDecode_default notWhole⟩
  · by_cases wide : ∃ B, B ∈ T ∧ 256 ≤ B
    · exact ⟨_, hostEncode_of_wide wide⟩
    · exact ⟨_, hostEncode_default notWhole fun B hB => Nat.lt_of_not_le fun h => wide ⟨B, hB, h⟩⟩
  · by_cases short : E.length % M N = 0
    · by_cases bad : ∃ x, x ∈ E ∧ x ≠ '0' ∧ x ≠ '1'
      · exact hostDecode_of_not_binary bad
      · exact ⟨_, hostDecode_default notWhole short fun x hx =>
          or_iff_not_imp_left.mpr fun h0 => by_contra fun h1 => bad ⟨x, hx, h0, h1⟩⟩
    · exact ⟨_, hostDecode_of_length short⟩

end Sys2Proof.Machine
end

section
/-! SUPPORT. Command words and commands (R71 to R74, R77, R78): a word of `M + 1` bits is what the two command ports spell,
a command that fits is what they present, and the decoder and the encoder pass between the two. -/

namespace Sys2Proof

open Layout

section
variable {N : Nat}

@[simp] theorem wellFormed_encode (x d : Nat) :
    (Instr.encode x d).wellFormed N = true ↔ x < 2 ^ K N ∧ d < 2 ^ N := by
  simp [Instr.wellFormed]

@[simp] theorem wellFormed_decode (c : Nat) : (Instr.decode c).wellFormed N = true ↔ c < 2 ^ M N := by
  simp [Instr.wellFormed]

theorem encode_instrEncode (x d : Nat) : encode N (.encode x d) = 2 ^ N * x + d := by
  rw [encode, Nat.zero_mul, Nat.zero_add, Nat.mul_comm]

theorem encode_instrDecode (c : Nat) : encode N (.decode c) = 2 ^ M N + c := by rw [encode, Nat.one_mul]

theorem encode_lt {i : Instr} (h : i.wellFormed N = true) : encode N i < 2 ^ (M N + 1) := by
  cases i with
  | encode x d => exact Laws.WordFits.encode x d N h
  | decode c => exact Laws.WordFits.decode c N h

/-- The command word `{cmd_op, cmd_word}` (R71). -/
def commandWord (N : Nat) (op : Bool) (word : BitVec (M N)) : Nat := op.toNat * 2 ^ M N + word.toNat

section
variable (op : Bool) (word : BitVec (M N))

@[simp] theorem opOf_commandWord : opOf N (commandWord N op word) = op := by
  rw [opOf, commandWord, Nat.mul_comm, Nat.testBit_two_pow_mul_add _ word.isLt]
  cases op <;> simp

@[simp] theorem wordOf_commandWord : wordOf N (commandWord N op word) = word := by
  refine BitVec.eq_of_toNat_eq ?_
  rw [wordOf, BitVec.toNat_ofNat, commandWord, Nat.mul_add_mod_self_right, Nat.mod_eq_of_lt word.isLt]

theorem encode_decodePorts : encode N (decodePorts N op word) = commandWord N op word := by
  cases op
  · simp [decodePorts, encode_instrEncode, commandWord, Nat.div_add_mod]
  · simp [decodePorts, encode_instrDecode, commandWord]

theorem commandWord_lt : commandWord N op word < 2 ^ (M N + 1) := by
  rw [← encode_decodePorts]
  exact encode_lt (Machine.decodePorts_wellFormed N op word)

theorem decode_commandWord : decode N (commandWord N op word) = .ok (decodePorts N op word) := by
  rw [decode, if_pos (commandWord_lt op word), opOf_commandWord, wordOf_commandWord]

theorem mnemonic_eq_encode : (decodePorts N op word).mnemonic = "ENCODE" ↔ op = false := by
  cases op <;> simp [decodePorts, Instr.mnemonic]

theorem mnemonic_eq_decode : (decodePorts N op word).mnemonic = "DECODE" ↔ op = true := by
  cases op <;> simp [decodePorts, Instr.mnemonic]

end

/-- A word of `M + 1` bits is bit `M` and the `M` bits below it. -/
theorem commandWord_opOf_wordOf {cmd : Nat} (h : cmd < 2 ^ (M N + 1)) :
    commandWord N (opOf N cmd) (wordOf N cmd) = cmd := by
  have top : (opOf N cmd).toNat = cmd / 2 ^ M N := by
    have : cmd / 2 ^ M N < 2 := Nat.div_lt_of_lt_mul (by rwa [← pow_succ])
    rw [opOf, Nat.toNat_testBit, Nat.mod_eq_of_lt this]
  rw [commandWord, top, wordOf, BitVec.toNat_ofNat, Nat.div_add_mod']

/-- All that the decoder can do. -/
theorem decode_eq_ok_iff {cmd : Nat} {i : Instr} :
    decode N cmd = .ok i ↔ cmd < 2 ^ (M N + 1) ∧ decodePorts N (opOf N cmd) (wordOf N cmd) = i := by
  unfold decode
  split <;> simp [*]

theorem decode_of_le {cmd : Nat} (h : 2 ^ (M N + 1) ≤ cmd) : decode N cmd = .error .widerThanCommand :=
  if_neg (Nat.not_lt.mpr h)

/-- Every command that fits is one that the ports can present: ENCODE's two fields are the quotient and the remainder of
`cmd_word` by `2^N`. -/
theorem exists_decodePorts_of_wellFormed {i : Instr} (h : i.wellFormed N = true) :
    ∃ op word, i = decodePorts N op word := by
  cases i with
  | encode x d =>
    obtain ⟨hx, hd⟩ := (wellFormed_encode x d).mp h
    have fits : 2 ^ N * x + d < 2 ^ M N := by
      rw [M_eq, Nat.add_comm N, pow_add]
      exact Nat.mul_add_lt_mul_of_lt_of_lt hx hd
    refine ⟨false, BitVec.ofNat (M N) (2 ^ N * x + d), ?_⟩
    simp [decodePorts, Nat.mod_eq_of_lt fits, Nat.mul_add_div, Nat.div_eq_of_lt hd, Nat.mod_eq_of_lt hd]
  | decode c =>
    refine ⟨true, BitVec.ofNat (M N) c, ?_⟩
    simp [decodePorts, Nat.mod_eq_of_lt ((wellFormed_decode c).mp h)]

/-- The decoder undoes the encoder on the commands that fit. -/
theorem decode_encode {i : Instr} (h : i.wellFormed N = true) : decode N (encode N i) = .ok i := by
  obtain ⟨op, word, rfl⟩ := exists_decodePorts_of_wellFormed h
  rw [encode_decodePorts, decode_commandWord]

end

/-- Settles O9: a command that fits is presented by the ports, and both its word and the decoded command are theirs. -/
theorem decodeEncodeCommand : Obligations.DecodeEncodeCommand :=
  fun _ _ h => ⟨encode_lt h, decode_encode h⟩

/-- Settles O11: a decoded command is the one on the ports, whose opcode is bit `M`; a row's mask keeps that bit alone. -/
theorem opcodeRowsPartitionWords : Obligations.OpcodeRowsPartitionWords := by
  refine ⟨fun N cmd i h => ?_, by decide⟩
  obtain ⟨-, rfl⟩ := decode_eq_ok_iff.mp h
  have masked : cmd &&& 2 ^ M N = (opOf N cmd).toNat * 2 ^ M N := Nat.and_two_pow cmd (M N)
  have encodeRow : cmd &&& 2 ^ M N = 0 ↔ opOf N cmd = false := by
    rw [masked]
    cases opOf N cmd <;> simp
  have decodeRow : cmd &&& 2 ^ M N = 2 ^ M N ↔ opOf N cmd = true := by
    rw [masked]
    cases opOf N cmd <;> simp [(Nat.two_pow_pos (M N)).ne]
  refine ⟨mnemonic_eq_encode _ _, mnemonic_eq_decode _ _, fun row hrow => ?_⟩
  rw [eq_comm (a := row.mnemonic)]
  simp only [opcodeTable, List.mem_cons, List.not_mem_nil, or_false] at hrow
  obtain rfl | rfl := hrow
  · exact encodeRow.trans (mnemonic_eq_encode _ _).symm
  · exact decodeRow.trans (mnemonic_eq_decode _ _).symm

/-- Settles O12: in ENCODE's word `x` starts at bit `N`, above `d`; in DECODE's the opcode bit stands above `c`. -/
theorem commandFieldPlacement : Obligations.CommandFieldPlacement := by
  refine ⟨fun N x d h => ?_, fun N c h => ?_⟩
  · obtain ⟨hx, hd⟩ := (wellFormed_encode x d).mp h
    have placed (b : Nat) : (encode N (.encode x d)).testBit b = if b < N then d.testBit b else x.testBit (b - N) := by
      rw [encode_instrEncode, Nat.testBit_two_pow_mul_add _ hd]
    refine ⟨?_, fun b _ => ?_, fun i h1 hi => ?_⟩
    · rw [placed, if_neg (by rw [M_eq]; omega), M_eq, Nat.add_sub_cancel_left, Nat.testBit_lt_two_pow hx]
    · rw [placed, if_neg (by omega), Nat.add_sub_cancel_left]
    · have below : N - i < N := by omega
      rw [placed, if_pos below, Machine.dataBits, bitAt_ofPort _ h1 hi, Machine.dataOperand, BitVec.getLsbD_ofNat,
        decide_eq_true below, Bool.true_and]
  · have hc := (wellFormed_decode c).mp h
    refine ⟨?_, fun j h1 hj => ?_⟩
    · rw [encode_instrDecode, Nat.testBit_two_pow_add_eq, Nat.testBit_lt_two_pow hc, Bool.not_false]
    · have below : M N - j < M N := by omega
      rw [encode_instrDecode, Nat.testBit_two_pow_add_gt below, Machine.codeBits, bitAt_ofPort _ h1 hj, Machine.codeOperand,
        BitVec.getLsbD_ofNat, decide_eq_true below, Bool.true_and]

end Sys2Proof
end

section
/-! SUPPORT. The responses to the command ports: the status codes (R76, R77) and the bits that ENCODE reads (R73). -/

namespace Sys2Proof.Machine

open Layout

/-! The status code, as a function of the syndrome value. -/

section
variable (N s : Nat)

theorem classify_code_eq_clean : (classify N s).code = 0b00#2 ↔ s = 0 := by
  obtain ⟨hs, h⟩ | ⟨hs, -, h⟩ | ⟨hs, -, h⟩ := classify_cases N s <;> simp [h, Status.code] <;> omega

theorem classify_code_eq_corrected : (classify N s).code = 0b01#2 ↔ 0 < s ∧ s < M N := by
  obtain ⟨hs, h⟩ | ⟨hs, hM, h⟩ | ⟨hs, hM, h⟩ := classify_cases N s <;> simp [h, Status.code] <;> omega

/-- For `N ≥ 1` no syndrome value is both 0 and at least `M`. -/
theorem classify_code_eq_uncorrectable (hN : 1 ≤ N) : (classify N s).code = 0b10#2 ↔ M N ≤ s := by
  have : 0 < M N := by rw [M_eq]; omega
  obtain ⟨hs, h⟩ | ⟨hs, hM, h⟩ | ⟨hs, hM, h⟩ := classify_cases N s <;> simp [h, Status.code] <;> omega

end

section
variable {N : Nat}

/-- DECODE's status is that of the syndrome value on the response's own port. -/
theorem status_decodeResponse (C : BitVec (M N)) :
    (decodeResponse N C).status = (classify N (decodeResponse N C).syndrome.toNat).code := by
  have syndrome : (decodeResponse N C).syndrome.toNat = syndromeValue N (codeBits C) :=
    toNat_toLsbPort (length_mulVec N _)
  rw [syndrome]
  rfl

theorem status_respond_ne_reserved (i : Instr) : (respond N i).status ≠ 0b11#2 := by
  cases i with
  | encode x d => exact Status.code_ne_reserved .clean
  | decode c => exact Status.code_ne_reserved _

/-- ENCODE's data word is the low `N` bits of `cmd_word`. -/
theorem F_false_eq (w : BitVec (M N)) : F N false w = encodeResponse N (w.setWidth N) := by
  rw [F_encode]
  congr 1
  exact BitVec.eq_of_toNat_eq (by simp)

end

/-- Settles O10: the command is the one that the word's bits present on the ports, and any other with that word would decode
to it as well. -/
theorem everyCommandWordIsLegal : Obligations.EveryCommandWordIsLegal := by
  refine fun N cmd => ⟨fun h => ⟨decodePorts N (opOf N cmd) (wordOf N cmd), ?_⟩, decode_of_le⟩
  have decoded : decode N cmd = .ok (decodePorts N (opOf N cmd) (wordOf N cmd)) := decode_eq_ok_iff.mpr ⟨h, rfl⟩
  have word := encode_decodePorts (opOf N cmd) (wordOf N cmd)
  rw [commandWord_opOf_wordOf h] at word
  refine ⟨decoded, decodePorts_wellFormed _ _ _, word, fun i' fits same => ?_, fun x x' d hi => ?_,
    status_respond_ne_reserved _⟩
  · have decoded' := decode_encode fits
    rw [same, decoded] at decoded'
    exact (Except.ok.inj decoded').symm
  · rw [hi, respond_encode, respond_encode]

/-- Settles O13: two words with the same low `N` bits present ENCODE with the same data word. -/
theorem encodeIgnoresUpperBits : Obligations.EncodeIgnoresUpperBits := by
  intro N w w' h
  have same : w.setWidth N = w'.setWidth N := BitVec.eq_of_getLsbD_eq fun b hb => by
    rw [BitVec.getLsbD_setWidth, BitVec.getLsbD_setWidth, h b hb]
  refine ⟨by rw [F_false_eq, F_false_eq, same], fun i h1 hi => ?_⟩
  have data : (F N false w).data = w.setWidth N := by rw [F_false_eq]; rfl
  rw [data, dataBits, bitAt_ofPort _ h1 hi, BitVec.getLsbD_setWidth, decide_eq_true (by omega), Bool.true_and]

/-- Settles O14: R81's four words, evaluated. -/
theorem referenceCommands : Obligations.ReferenceCommands :=
  ⟨rfl, rfl, rfl, rfl, by decide, by decide, by decide, by decide⟩

/-- Settles O45: a presented response is `F` of a command, of ENCODE with status and syndrome 0 or of DECODE with the status
of its syndrome value. -/
theorem presentedStatusCodes : Obligations.PresentedStatusCodes := by
  rintro p b b' r ⟨hN, -⟩ ⟨hpipe, -⟩ hstep hr
  have genuine : b'.out.Genuine := by
    rw [step_next hstep]
    exact (genuine_nextBlock hpipe).2
  rw [Slot.eq_of_response hr] at genuine
  obtain ⟨op, word, rfl : r = F p.N op word⟩ := genuine rfl
  refine ⟨status_respond_ne_reserved _, ?_⟩
  cases op with
  | false =>
    have hop : (F p.N false word).op = false := rfl
    have hstatus : (F p.N false word).status = 0b00#2 := rfl
    simp [hop, hstatus]
  | true =>
    have hop : (decodeResponse p.N word).op = true := rfl
    rw [F_decode, hop, status_decodeResponse, classify_code_eq_clean, classify_code_eq_corrected,
      classify_code_eq_uncorrectable _ _ hN]
    simp

/-- A cycle in which the ports present a command runs it in the state whose coming inputs have moved on. -/
theorem step_of_present {s : State} {op : Bool} {word : BitVec (M s.params.N)}
    (h : s.block.inputs = Inputs.present s.params.N op word) :
    step s = exec (decodePorts s.params.N op word) s.takeInputs := by
  rw [step, h]
  rfl

/-- Settles O32: the word on the ports decodes to the command they present. -/
theorem stepRunsPresentedCommand : Obligations.StepRunsPresentedCommand := by
  refine ⟨fun p b op word rest i hstim hi => ?_, fun p b nbits w i hi => ?_⟩
  · obtain rfl : decodePorts p.N op word = i := Except.ok.inj ((decode_commandWord op word).symm.trans hi)
    have inputs : b.inputs = Inputs.present p.N op word := congrArg (List.headD · _) hstim
    rw [step_of_present (s := ⟨p, b⟩) inputs, State.takeInputs, hstim]
    rfl
  · obtain ⟨-, rfl⟩ := decode_eq_ok_iff.mp hi
    exact step_of_present rfl

end Sys2Proof.Machine
end

section
/-! SUPPORT. What the assembler makes of a line with a mnemonic and an operand (R79), and of a comment. -/

namespace Sys2Proof.Machine

open Layout

/-! Words and comments. -/

/-- Where a line begins with a word, that word comes first, and the others are those of the rest. -/
theorem wordsOf_append {w L : List Char} (hne : w ≠ []) (hw : ∀ x ∈ w, isBlank x = false)
    (hL : ∀ y ∈ L.head?, isBlank y = true) : wordsOf (w ++ L) = w :: wordsOf L := by
  induction w with
  | nil => exact absurd rfl hne
  | cons x w ih =>
    obtain ⟨hx, hw⟩ := List.forall_mem_cons.mp hw
    cases w with
    | nil =>
      cases L with
      | nil => simp [wordsOf, hx]
      | cons y L => simp [wordsOf, hx, hL y rfl]
    | cons y w =>
      have rest := ih (List.cons_ne_nil y w) hw
      rw [List.cons_append] at rest
      rw [List.cons_append, List.cons_append, wordsOf, rest]
      simp [hx, hw y List.mem_cons_self]

theorem wordsOf_cons_blank {x : Char} (h : isBlank x = true) (L : List Char) : wordsOf (x :: L) = wordsOf L := by
  simp [wordsOf, h]

theorem wordsOf_pair {v w : List Char} (hv : v ≠ []) (hv' : ∀ x ∈ v, isBlank x = false) (hw : w ≠ [])
    (hw' : ∀ x ∈ w, isBlank x = false) : wordsOf (v ++ ' ' :: w) = [v, w] := by
  have operand : wordsOf w = [w] := by simpa [wordsOf] using wordsOf_append (L := []) hw hw' (by simp)
  rw [wordsOf_append hv hv' (by simp [isBlank]), wordsOf_cons_blank rfl, operand]

theorem stripComment_of_not_mem {L : List Char} (h : ∀ x ∈ L, x ≠ ';') : stripComment L = L := by
  simpa [stripComment] using h

/-- A comment is no part of its line. -/
theorem stripComment_append (line comment : List Char) :
    stripComment (line ++ ';' :: comment) = stripComment line := by
  induction line with
  | nil => rfl
  | cons x line ih =>
    simp only [stripComment] at ih
    simp only [stripComment, List.cons_append, List.takeWhile_cons, ih]

/-! A line with one operand. -/

section
variable (N : Nat) {operand : List Char} (hne : operand ≠ []) (hop : ∀ x ∈ operand, isBlank x = false ∧ x ≠ ';')
include hne hop

theorem wordsOf_line (name : List Char) (hne' : name ≠ []) (hname : ∀ x ∈ name, isBlank x = false ∧ x ≠ ';') :
    wordsOf (stripComment (name ++ ' ' :: operand)) = [name, operand] := by
  have noComment : ∀ x ∈ name ++ ' ' :: operand, x ≠ ';' := by
    simp only [List.mem_append, List.mem_cons]
    rintro x (h | rfl | h)
    · exact (hname x h).2
    · decide
    · exact (hop x h).2
  rw [stripComment_of_not_mem noComment, wordsOf_pair hne' (fun x h => (hname x h).1) hne fun x h => (hop x h).1]

theorem assembleLine_encode : assembleLine N (encodeName ++ ' ' :: operand)
    = (operandValue N operand).elim (.error .badOperand) fun d => .ok (some (.encode 0 d)) := by
  rw [assembleLine, wordsOf_line hne hop encodeName (List.cons_ne_nil _ _) (by simp [encodeName, isBlank])]
  dsimp only
  rw [if_pos rfl]
  cases operandValue N operand <;> rfl

theorem assembleLine_decode : assembleLine N (decodeName ++ ' ' :: operand)
    = (operandValue (M N) operand).elim (.error .badOperand) fun c => .ok (some (.decode c)) := by
  have other : decodeName ≠ encodeName := by decide
  rw [assembleLine, wordsOf_line hne hop decodeName (List.cons_ne_nil _ _) (by simp [decodeName, isBlank])]
  dsimp only
  rw [if_neg other, if_pos rfl]
  cases operandValue (M N) operand <;> rfl

end

/-! Binary operands. -/

theorem operandValue_of_not_hex (w : Nat) {L : List Char} (h : L.take 2 ≠ ['0', 'x']) :
    operandValue w L = binaryOperand w L := by
  unfold operandValue
  split
  · exact absurd rfl h
  · rfl

theorem binaryOperand_map_bitChar (w : Nat) (b : Bits) :
    binaryOperand w (b.map bitChar) = if b.length = w then some (msbValue b) else none := by
  have binary : (b.map bitChar).all (fun x => x == '0' || x == '1') = true := by
    simpa using fun x _ => bitChar_binary x
  simp only [binaryOperand, map_bitChar_eq_one, binary, List.length_map, and_true]

theorem binaryOperand_of_other (w : Nat) {L : List Char} (h : ∃ x, x ∈ L ∧ x ≠ '0' ∧ x ≠ '1') :
    binaryOperand w L = none := by
  obtain ⟨x, hx, h0, h1⟩ := h
  refine if_neg fun ⟨_, all⟩ => ?_
  simpa [h0, h1] using List.all_eq_true.mp all x hx

theorem bitChars_ne_hex (b : Bits) : (b.map bitChar).take 2 ≠ ['0', 'x'] := by
  intro h
  have hx : 'x' ∈ b.map bitChar := List.mem_of_mem_take (h ▸ by simp : 'x' ∈ (b.map bitChar).take 2)
  obtain ⟨a, -, ha⟩ := List.mem_map.mp hx
  cases a <;> simp [bitChar] at ha

theorem bitChars_one_word (b : Bits) : ∀ x ∈ b.map bitChar, isBlank x = false ∧ x ≠ ';' := by
  simp only [List.forall_mem_map]
  rintro (_ | _) - <;> decide

/-- Settles O15: a line with one operand is refused exactly when the operand has no value. -/
theorem assemblerBinaryOperands : Obligations.AssemblerBinaryOperands := by
  refine ⟨fun N b hb => ?_, fun N operand notHex oneWord other => ?_⟩
  · have hne : b.map bitChar ≠ [] := by simpa using hb
    have value (w : Nat) : operandValue w (b.map bitChar) = if b.length = w then some (msbValue b) else none := by
      rw [operandValue_of_not_hex w (bitChars_ne_hex b), binaryOperand_map_bitChar]
    rw [assembleLine_encode N hne (bitChars_one_word b), assembleLine_decode N hne (bitChars_one_word b), value, value,
      apply_ite (Option.elim · _ _), apply_ite (Option.elim · _ _)]
    exact ⟨rfl, rfl⟩
  · have hne : operand ≠ [] := by
      obtain ⟨x, hx, -⟩ := other
      exact List.ne_nil_of_mem hx
    have value (w : Nat) : operandValue w operand = none := by
      rw [operandValue_of_not_hex w notHex, binaryOperand_of_other w other]
    rw [assembleLine_encode N hne oneWord, assembleLine_decode N hne oneWord, value, value]
    exact ⟨rfl, rfl⟩

/-! Hexadecimal operands. -/

/-- The upper-case character of a hexadecimal digit. -/
def hexChar (d : Fin 16) : Char := "0123456789ABCDEF".toList.getD d.val '0'

theorem hexDigit_hexChar : ∀ d : Fin 16, hexDigit (hexChar d) = some d.val := by decide

theorem hexChar_one_word : ∀ d : Fin 16, isBlank (hexChar d) = false ∧ hexChar d ≠ ';' := by decide

theorem hexValue_append {L : List Char} {x : Char} {n d : Nat} (hL : hexValue L = some n) (hx : hexDigit x = some d) :
    hexValue (L ++ [x]) = some (16 * n + d) := by
  rw [hexValue] at hL ⊢
  rw [List.foldl_append, hL, List.foldl_cons, hx]
  rfl

/-- The last digit is the least significant. -/
theorem hexValue_map_hexChar (ds : List (Fin 16)) :
    hexValue (ds.map hexChar) = some (Nat.ofDigits 16 (ds.reverse.map Fin.val)) := by
  induction ds using List.reverseRecOn with
  | nil => rfl
  | append_singleton ds d ih =>
    rw [List.map_append, List.map_singleton, hexValue_append ih (hexDigit_hexChar d), List.reverse_concat,
      List.map_cons, Nat.ofDigits_cons, Nat.add_comm]

theorem operandValue_hex (w : Nat) {ds : List (Fin 16)} (h : ds ≠ []) :
    operandValue w ('0' :: 'x' :: ds.map hexChar)
      = if Nat.ofDigits 16 (ds.reverse.map Fin.val) < 2 ^ w
        then some (Nat.ofDigits 16 (ds.reverse.map Fin.val)) else none := by
  obtain ⟨d, ds, rfl⟩ := List.exists_cons_of_ne_nil h
  have value := hexValue_map_hexChar (d :: ds)
  rw [List.map_cons] at value
  rw [List.map_cons, operandValue, value]

theorem hexOperand_one_word (ds : List (Fin 16)) :
    ∀ x ∈ '0' :: 'x' :: ds.map hexChar, isBlank x = false ∧ x ≠ ';' := by
  simp only [List.forall_mem_cons, List.forall_mem_map]
  exact ⟨by decide, by decide, fun d _ => hexChar_one_word d⟩

/-- Settles O16: the operand is one word, whose value is that of its digits where it fits. -/
theorem assemblerHexOperands : Obligations.AssemblerHexOperands := by
  refine ⟨fun N ds hds => ?_, fun N d => by simp [encode_instrEncode], fun N c => encode_instrDecode c,
    fun N line comment => by rw [assembleLine, stripComment_append, ← assembleLine]⟩
  change assembleLine N (encodeName ++ ' ' :: '0' :: 'x' :: ds.map hexChar) = _ ∧
    assembleLine N (decodeName ++ ' ' :: '0' :: 'x' :: ds.map hexChar) = _
  have hne : '0' :: 'x' :: ds.map hexChar ≠ [] := List.cons_ne_nil _ _
  rw [assembleLine_encode N hne (hexOperand_one_word ds), assembleLine_decode N hne (hexOperand_one_word ds),
    operandValue_hex N hds, operandValue_hex (M N) hds, apply_ite (Option.elim · _ _), apply_ite (Option.elim · _ _)]
  exact ⟨rfl, rfl⟩

end Sys2Proof.Machine
end

section
/-! SUPPORT. The parity count `K` by its bounds (R100, R101, R108): `K N ≤ k` exactly when `2^k ≥ N + k + 1`, and
`bitlen j ≤ k` exactly when `j < 2^k`. -/

namespace Sys2Proof

theorem bitlen_le_iff {j k : Nat} : bitlen j ≤ k ↔ j < 2 ^ k := by
  unfold bitlen
  split
  · next h => simp [h]
  · next h => rw [Nat.succ_le_iff, Nat.log2_lt h]

theorem lt_bitlen_iff {j k : Nat} : k < bitlen j ↔ 2 ^ k ≤ j := by
  rw [← Nat.not_le, bitlen_le_iff, Nat.not_lt]

end Sys2Proof

namespace Sys2Proof.Layout

variable {N : Nat}

/-- A count that is large enough stays so when it grows, so `K` bounds all of them from below. -/
theorem K_le_iff {k : Nat} : K N ≤ k ↔ N + k + 1 ≤ 2 ^ k := by
  obtain ⟨enough, least⟩ := K_spec N
  refine ⟨fun h => ?_, fun h => Nat.le_of_not_lt fun hk => (least k hk).not_ge h⟩
  induction k, h using Nat.le_induction with
  | base => exact enough
  | succ k _ ih => rw [pow_succ]; omega

theorem lt_K_iff {k : Nat} : k < K N ↔ 2 ^ k < N + k + 1 := by
  rw [← Nat.not_le, K_le_iff, Nat.not_le]

theorem K_pos (h : 1 ≤ N) : 0 < K N := by
  rw [lt_K_iff, pow_zero]
  omega

theorem K_le_succ (N : Nat) : K N ≤ N + 1 := by
  have := Nat.lt_two_pow_self (n := N)
  rw [K_le_iff, pow_succ]
  omega

theorem K_mono {N N' : Nat} (h : N ≤ N') : K N ≤ K N' := by
  have enough := (K_spec N').1
  rw [K_le_iff]
  omega

theorem K_succ_of_fullLength (h : 1 ≤ N) (full : fullLength N) : K (N + 1) = K N + 1 := by
  have pow : 2 ≤ 2 ^ K N := Nat.le_self_pow (K_pos h).ne' 2
  rw [fullLength, M_eq] at full
  have above : K N < K (N + 1) := lt_K_iff.mpr (by omega)
  have atMost : K (N + 1) ≤ K N + 1 := K_le_iff.mpr (by rw [pow_succ]; omega)
  exact atMost.antisymm above

theorem K_succ_of_not_fullLength (notFull : ¬ fullLength N) : K (N + 1) = K N := by
  have := M_lt_two_pow_K N
  rw [M_eq] at this
  rw [fullLength, M_eq] at notFull
  exact (K_le_iff.mpr (by omega)).antisymm (K_mono N.le_succ)

/-- Below `K`, one pass of R101's loop raises the count and stays at `K` or below. -/
theorem bitlen_between {k : Nat} (h : k < K N) : k < bitlen (N + k) ∧ bitlen (N + k) ≤ K N := by
  have := M_lt_two_pow_K N
  rw [M_eq] at this
  exact ⟨lt_bitlen_iff.mpr (two_pow_le_of_lt_K h), bitlen_le_iff.mpr (by omega)⟩

/-- The loop ends at `K` from any count at or below it, if each pass may raise the count by no more than one. -/
theorem loopCount_eq_K {fuel k : Nat} (below : k ≤ K N) (reaches : K N ≤ k + fuel) : loopCount N fuel k = K N := by
  induction fuel generalizing k with
  | zero => exact below.antisymm reaches
  | succ fuel ih =>
    rw [loopCount]
    split
    · next stop => exact below.antisymm (K_le_iff.mpr stop)
    · next go =>
      obtain ⟨raised, below'⟩ := bitlen_between (N := N) (k := k) (by rw [lt_K_iff]; omega)
      exact ih below' (by omega)

/-- Settles O1: `K` is large enough, and nothing smaller is. -/
theorem parityCountIsLeast : Obligations.ParityCountIsLeast := ⟨fun N _ => K_spec N, by decide⟩

/-- Settles O2: the loop starts at 0 and has fuel for `N + 1 ≥ K` passes. -/
theorem sourceLoopComputesParityCount : Obligations.SourceLoopComputesParityCount := fun N _ =>
  loopCount_eq_K (Nat.zero_le _) (by rw [Nat.zero_add]; exact K_le_succ N)

/-- Settles O7: a full-length `N` leaves no room for another data bit, any other `N` does. -/
theorem parityCountMonotone : Obligations.ParityCountMonotone :=
  ⟨fun _ _ _ => K_mono, fun _ h => ⟨K_succ_of_fullLength h, K_succ_of_not_fullLength⟩⟩

end Sys2Proof.Layout
end

section
/-! SUPPORT. The data positions (R103, R104): counting the powers of two among `1..j` with `bitlen` gives the length of `Q`, the
place of each position in it, and the data bit that the codeword holds there. -/

namespace Sys2Proof

theorem bitlen_succ_of_two_pow {j t : Nat} (h : j + 1 = 2 ^ t) : bitlen (j + 1) = bitlen j + 1 := by
  have low : bitlen j = t := by
    refine (bitlen_le_iff.mpr (by omega)).antisymm (Nat.le_of_not_lt fun hlt => ?_)
    have := bitlen_le_iff.mp (Nat.le_sub_one_of_lt hlt)
    have pow : 2 ^ t = 2 ^ (t - 1) * 2 := by rw [← pow_succ, Nat.sub_add_cancel (by omega)]
    have := Nat.two_pow_pos (t - 1)
    omega
  rw [low, h]
  exact (bitlen_le_iff.mpr (Nat.pow_lt_pow_succ (by decide))).antisymm (lt_bitlen_iff.mpr le_rfl)

theorem bitlen_succ_of_ne_two_pow {j : Nat} (h : ∀ t, j + 1 ≠ 2 ^ t) : bitlen (j + 1) = bitlen j := by
  refine (bitlen_le_iff.mpr ?_).antisymm (bitlen_le_iff.mpr ?_)
  · exact (Nat.succ_le_of_lt (bitlen_le_iff.mp le_rfl)).lt_of_ne (h _)
  · exact Nat.lt_of_succ_lt (bitlen_le_iff.mp le_rfl)

/-- From `j ≤ 2^(j−1)`, where a `j` that is no power of two leaves no equality. -/
theorem bitlen_lt_of_ne_two_pow {j : Nat} (h1 : 1 ≤ j) (h : ∀ t, j ≠ 2 ^ t) : bitlen j < j := by
  have := Nat.lt_two_pow_self (n := j - 1)
  have := h (j - 1)
  exact Nat.lt_of_le_pred h1 (bitlen_le_iff.mpr (by rw [Nat.pred_eq_sub_one]; omega))

end Sys2Proof

namespace Sys2Proof.Layout

variable {N : Nat}

/-- R104(b): within the codeword, the parity positions are all the powers of two. -/
theorem mem_P_iff_two_pow {j : Nat} (hj : j ≤ M N) : j ∈ P N ↔ ∃ t, j = 2 ^ t := by
  rw [mem_P]
  constructor
  · rintro ⟨t, -, rfl⟩
    exact ⟨t, rfl⟩
  · rintro ⟨t, rfl⟩
    exact ⟨t, (Nat.pow_lt_pow_iff_right (by decide)).mp (hj.trans_lt (M_lt_two_pow_K N)), rfl⟩

theorem mem_Q_iff_ne_two_pow {j : Nat} : j ∈ Q N ↔ 1 ≤ j ∧ j ≤ M N ∧ ∀ t, j ≠ 2 ^ t := by
  rw [mem_Q, and_assoc]
  refine and_congr_right fun _ => and_congr_right fun hj => ?_
  rw [mem_P_iff_two_pow hj, not_exists]

/-- R104(c). -/
theorem M_ne_two_pow (t : Nat) : M N ≠ 2 ^ t := by
  intro h
  have below : t < K N := (Nat.pow_lt_pow_iff_right (by decide)).mp (h ▸ M_lt_two_pow_K N)
  exact (two_pow_lt_M below).ne' h

theorem M_pos (h : 1 ≤ N) : 1 ≤ M N := h.trans (Nat.le_add_right N (K N))

theorem M_mem_Q (h : 1 ≤ N) : M N ∈ Q N := mem_Q_iff_ne_two_pow.mpr ⟨M_pos h, le_rfl, M_ne_two_pow⟩

/-- R104(d). -/
theorem bitlen_M (N : Nat) : bitlen (M N) = K N := by
  refine (bitlen_le_iff.mpr (M_lt_two_pow_K N)).antisymm (Nat.le_of_not_lt fun hlt => ?_)
  have large : 2 ^ bitlen (M N) < M N := two_pow_lt_M hlt
  exact large.not_gt (bitlen_le_iff.mp le_rfl)

/-- The data positions among `1..m`. -/
def dataUpTo (N m : Nat) : List Nat := (List.range' 1 m).filter fun j => !(P N).contains j

theorem Q_eq_dataUpTo (N : Nat) : Q N = dataUpTo N (M N) := rfl

theorem dataUpTo_succ (N m : Nat) :
    dataUpTo N (m + 1) = dataUpTo N m ++ if m + 1 ∈ P N then [] else [m + 1] := by
  rw [dataUpTo, List.range'_1_concat, List.filter_append, ← dataUpTo, Nat.add_comm 1 m]
  split <;> simp [*]

/-- Of the positions `1..m`, `bitlen m` are powers of two. -/
theorem length_dataUpTo {m : Nat} (hm : m ≤ M N) : (dataUpTo N m).length + bitlen m = m := by
  induction m with
  | zero => rfl
  | succ m ih =>
    have ih := ih (Nat.le_of_succ_le hm)
    rw [dataUpTo_succ, List.length_append]
    split
    · next h =>
      obtain ⟨t, ht⟩ := (mem_P_iff_two_pow hm).mp h
      rw [bitlen_succ_of_two_pow ht, List.length_nil]
      omega
    · next h =>
      rw [bitlen_succ_of_ne_two_pow fun t ht => h ((mem_P_iff_two_pow hm).mpr ⟨t, ht⟩), List.length_singleton]
      omega

theorem bitlen_lt_of_mem_Q {j : Nat} (hj : j ∈ Q N) : bitlen j < j := by
  obtain ⟨h1, -, hne⟩ := mem_Q_iff_ne_two_pow.mp hj
  exact bitlen_lt_of_ne_two_pow h1 hne

theorem length_Q (N : Nat) : (Q N).length = N := by
  have count := length_dataUpTo (le_refl (M N))
  rw [← Q_eq_dataUpTo, bitlen_M] at count
  exact Nat.add_right_cancel count

theorem Q_eq_dataUpTo_append {m : Nat} (hm : m ≤ M N) : ∃ rest, Q N = dataUpTo N m ++ rest := by
  refine ⟨(List.range' (1 + m) (M N - m)).filter fun j => !(P N).contains j, ?_⟩
  rw [dataUpTo, ← List.filter_append, List.range'_append_1, Nat.add_sub_cancel' hm, Q]

/-- R103: position `j` is entry `j − bitlen(j)` of `Q`. -/
theorem getElem?_Q {j : Nat} (hj : j ∈ Q N) : (Q N)[j - bitlen j - 1]? = some j := by
  obtain ⟨h1, hM, hne⟩ := mem_Q_iff_ne_two_pow.mp hj
  obtain ⟨m, rfl⟩ := Nat.exists_eq_add_of_le' h1
  have count := length_dataUpTo (Nat.le_of_succ_le hM)
  have index : m + 1 - bitlen (m + 1) - 1 = (dataUpTo N m).length := by
    rw [bitlen_succ_of_ne_two_pow hne]
    omega
  have last : dataUpTo N (m + 1) = dataUpTo N m ++ [m + 1] := by
    rw [dataUpTo_succ, if_neg ((mem_Q N _).mp hj).2]
  obtain ⟨rest, parts⟩ := Q_eq_dataUpTo_append hM
  rw [index, parts, last, List.append_assoc, List.getElem?_append_right le_rfl, Nat.sub_self]
  rfl

theorem pairwise_P (N : Nat) : (P N).Pairwise (· < ·) :=
  List.pairwise_map.mpr (List.pairwise_lt_range.imp fun h => Nat.pow_lt_pow_right (by decide) h)

theorem pairwise_Q (N : Nat) : (Q N).Pairwise (· < ·) := List.Pairwise.filter _ List.pairwise_lt_range'

end Sys2Proof.Layout

namespace Sys2Proof.Machine

open Layout

variable {N j : Nat} {d : Bits}

/-- R121: a position that none of the first `k` placeholders takes holds the data bit whose number is less than the position's
by the placeholders below it. -/
theorem bitAt_placeLow_of_ne {k : Nat} (fits : ∀ i < k, 2 ^ i ≤ d.length + i) (hj : ∀ i < k, j ≠ 2 ^ i) :
    bitAt (placeLow k d) j = bitAt d (j - min k (bitlen j)) := by
  induction k generalizing j with
  | zero => simp [placeLow]
  | succ k ih =>
    have fits' (i : Nat) (hi : i < k) := fits i (Nat.lt_succ_of_lt hi)
    rw [placeLow_succ, bitAt_insertAt _ _ _ Nat.one_le_two_pow (two_pow_le_length_placeLow (fits k k.lt_succ_self))]
    obtain below | above := Nat.lt_or_gt_of_ne (hj k k.lt_succ_self)
    · have short : bitlen j ≤ k := bitlen_le_iff.mpr below
      rw [if_pos below, ih fits' fun i hi => hj i (Nat.lt_succ_of_lt hi), Nat.min_eq_right short,
        Nat.min_eq_right (Nat.le_succ_of_le short)]
    · have long : k + 1 ≤ bitlen (j - 1) := lt_bitlen_iff.mpr (Nat.le_sub_one_of_lt above)
      have long' : k + 1 ≤ bitlen j := lt_bitlen_iff.mpr above.le
      have clear (i : Nat) (hi : i < k) : j - 1 ≠ 2 ^ i := by
        have : 2 ^ i < 2 ^ k := Nat.pow_lt_pow_right (by decide) hi
        omega
      rw [if_neg above.not_gt, if_neg above.ne', ih fits' clear, Nat.min_eq_left (Nat.le_of_succ_le long),
        Nat.min_eq_left long', Nat.sub_sub, Nat.add_comm 1 k]

/-- R121: a data position holds the data bit whose number is its own less the placeholders below it. -/
theorem bitAt_insertPlaceholders_of_mem_Q (hd : d.length = N) (hj : j ∈ Q N) :
    bitAt (insertPlaceholders N d) j = bitAt d (j - bitlen j) := by
  obtain ⟨-, hM, hne⟩ := mem_Q_iff_ne_two_pow.mp hj
  rw [insertPlaceholders_eq, bitAt_placeLow_of_ne (fun i => two_pow_le_of_length hd) fun i _ => hne i,
    Nat.min_eq_right (bitlen_le_iff.mpr (hM.trans_lt (M_lt_two_pow_K N)))]

/-- R122: the overwrites leave the data positions. -/
theorem bitAt_encodeBits_of_mem_Q (hd : d.length = N) (hj : j ∈ Q N) :
    bitAt (encodeBits N d) j = bitAt d (j - bitlen j) := by
  obtain ⟨-, -, hne⟩ := mem_Q_iff_ne_two_pow.mp hj
  have fits (i : Nat) (hi : i < K N) : 2 ^ i ≤ (insertPlaceholders N d).length :=
    (two_pow_lt_M hi).le.trans (length_insertPlaceholders_eq_M hd).ge
  rw [encodeBits, overwriteParity_eq, bitAt_writeLow_of_ne fits fun i _ => hne i,
    bitAt_insertPlaceholders_of_mem_Q hd hj]

/-- Settles O3: the places in `Q` and the data bits both come from counting the powers of two below a position. -/
theorem parityAndDataPositions : Obligations.ParityAndDataPositions := by
  refine ⟨fun N _ => ⟨length_P N, fun i hi => by simp [P, hi], pairwise_P N, length_Q N, pairwise_Q N,
    fun j => mem_Q_iff_ne_two_pow, fun j hj => ⟨bitlen_lt_of_mem_Q hj, getElem?_Q hj⟩, fun d j hd hj => ?_⟩,
    by decide, by decide⟩
  rw [bitAt_encodeBits_of_mem_Q hd hj, bitAt_of_pos d (Nat.sub_pos_of_lt (bitlen_lt_of_mem_Q hj))]

end Sys2Proof.Machine

namespace Sys2Proof.Layout

variable {N : Nat}

/-- R104(c): position `M` is the last data position. -/
theorem getElem?_Q_last (h : 1 ≤ N) : (Q N)[N - 1]? = some (M N) := by
  have entry := getElem?_Q (M_mem_Q h)
  rwa [bitlen_M, M_eq, Nat.add_sub_cancel, ← M_eq] at entry

/-- R104(e): it is the largest syndrome value that decides. -/
theorem fullLength_iff (h : 1 ≤ N) : fullLength N ↔ ∀ s, 1 ≤ s → s ≤ 2 ^ K N - 1 → s ≤ M N := by
  have largest : M N ≤ 2 ^ K N - 1 := Nat.le_sub_one_of_lt (M_lt_two_pow_K N)
  exact ⟨fun full s _ hs => hs.trans full.ge, fun all => largest.antisymm (all _ ((M_pos h).trans largest) le_rfl)⟩

/-- Settles O4: each fact follows from the bounds of `K` and from `M` being no power of two. -/
theorem codewordLengthFacts : Obligations.CodewordLengthFacts := by
  refine ⟨fun N h => ?_, by decide⟩
  have parity (i : Nat) (hi : i < K N) : 2 ^ i ≤ M N - 1 := Nat.le_sub_one_of_lt (two_pow_lt_M hi)
  exact ⟨M_eq N, Nat.le_sub_one_of_lt (M_lt_two_pow_K N), parity _ (Nat.sub_one_lt (K_pos h).ne'),
    fun i hi => ⟨Nat.one_le_two_pow, parity i hi⟩, M_ne_two_pow, getElem?_Q_last h, (bitlen_M N).symm, fullLength_iff h⟩

end Sys2Proof.Layout
end

section
/-! SUPPORT. The entries of `H` (R105, R106), and the product's value as the XOR of the positions that hold a 1 (R107). -/

namespace Sys2Proof

theorem testBit_xorNat (l : List Nat) (i : Nat) : (xorNat l).testBit i = xorAll (l.map (bit · i)) := by
  induction l with
  | nil => simp
  | cons n l ih => rw [xorNat_cons, Nat.testBit_xor, ih, List.map_cons, xorAll_cons, bit]

theorem xorAll_map_filter {α : Type} (l : List α) (p f : α → Bool) :
    xorAll ((l.filter p).map f) = xorAll (l.map fun a => f a && p a) := by
  induction l with
  | nil => rfl
  | cons a l ih => cases h : p a <;> simp [h, ih]

end Sys2Proof

namespace Sys2Proof.Layout

variable {N : Nat}

/-- R105: row `i` of `H` holds bit `i` of each position. -/
theorem bitAt_H {i j : Nat} (hi : i < K N) (h1 : 1 ≤ j) (hj : j ≤ M N) : bitAt ((H N).getD i []) j = bit j i := by
  obtain ⟨j, rfl⟩ := Nat.exists_eq_add_of_le' h1
  have column : j < M N := hj
  simp [H, hi, column, Nat.add_comm 1 j]

theorem length_of_mem_H {row : Bits} (h : row ∈ H N) : row.length = M N := by
  obtain ⟨i, -, rfl⟩ := List.mem_map.mp h
  simp

/-- Two numbers below `2^K` that differ do so in one of the `K` rows. -/
theorem exists_bit_ne {j j' : Nat} (hj : j ≤ M N) (hj' : j' ≤ M N) (hne : j ≠ j') : ∃ i, i < K N ∧ bit j i ≠ bit j' i := by
  obtain ⟨i, hi⟩ := Nat.exists_testBit_ne_of_ne hne
  refine ⟨i, Nat.lt_of_not_le fun hK => hi ?_, hi⟩
  have small : M N < 2 ^ i := (M_lt_two_pow_K N).trans_le (Nat.pow_le_pow_right (by decide) hK)
  rw [Nat.testBit_lt_two_pow (hj.trans_lt small), Nat.testBit_lt_two_pow (hj'.trans_lt small)]

/-- R107: the product's value is the XOR of the positions that hold a 1. -/
theorem syndromeValue_eq_xorNat {v : Bits} (hv : v.length = M N) :
    Machine.syndromeValue N v = xorNat (onePositions v) := by
  refine Nat.eq_of_testBit_eq fun i => ?_
  rw [testBit_syndromeValue hv, testBit_xorNat, onePositions, xorAll_map_filter, hv, rowTerms]

/-- Settles O5: a column of `H` is its position in binary, so the columns are nonzero and distinct. -/
theorem parityCheckMatrix : Obligations.ParityCheckMatrix := by
  refine ⟨fun N _ => ⟨length_H N, fun row => length_of_mem_H, fun i j => bitAt_H, fun i i' hi hi' => ?_,
    fun j h1 hj => ?_, fun j j' h1 hj h1' hj' hne => ?_⟩, by decide⟩
  · rw [bitAt_H hi' Nat.one_le_two_pow (two_pow_lt_M hi).le, bit_two_pow, decide_eq_true_iff, eq_comm]
  · obtain ⟨i, hi, differ⟩ := exists_bit_ne hj (Nat.zero_le (M N)) (Nat.ne_of_gt h1)
    refine ⟨i, hi, ?_⟩
    rw [bitAt_H hi h1 hj]
    simpa [bit] using differ
  · obtain ⟨i, hi, differ⟩ := exists_bit_ne hj hj' hne
    refine ⟨i, hi, ?_⟩
    rwa [bitAt_H hi h1 hj, bitAt_H hi h1' hj']

/-- Settles O6: bit `i` of either value is the sum for row `i`. -/
theorem productIsXorOfPositions : Obligations.ProductIsXorOfPositions := by
  refine fun N v hv => ⟨length_mulVec N v, fun i => mulVec_getD hv, ?_, syndromeValue_eq_xorNat hv⟩
  rw [lsbValue_eq_sum, length_mulVec]

end Sys2Proof.Layout
end

section
/-! SUPPORT. The data positions by number, and what the placeholders leave at each of them (R103, R121, O17). -/

namespace Sys2Proof.Layout

variable {N : Nat}

theorem getD_Q_mem {t : Nat} (ht : t < N) : (Q N).getD t 0 ∈ Q N := by
  rw [List.getD_eq_getElem _ _ ((length_Q N).symm ▸ ht)]
  exact List.getElem_mem _

/-- R103, read the other way: below entry `t` of `Q`, counted from 0, stand `t` data positions and the powers of two. -/
theorem getD_Q_sub_bitlen {t : Nat} (ht : t < N) : (Q N).getD t 0 - bitlen ((Q N).getD t 0) = t + 1 := by
  have hlt : t < (Q N).length := (length_Q N).symm ▸ ht
  have hmem := getD_Q_mem ht
  have entry : (Q N)[t]? = (Q N)[(Q N).getD t 0 - bitlen ((Q N).getD t 0) - 1]? := by
    rw [getElem?_Q hmem, List.getElem?_eq_getElem hlt, List.getD_eq_getElem _ _ hlt]
  have index := (List.getElem?_inj hlt ((pairwise_Q N).imp Nat.ne_of_lt)).mp entry
  have := bitlen_lt_of_mem_Q hmem
  omega

theorem map_Q {α : Type} (f : Nat → α) : (Q N).map f = (List.range N).map fun t => f ((Q N).getD t 0) := by
  refine List.ext_getElem (by simp [length_Q]) fun t ht _ => ?_
  have hlt : t < (Q N).length := by simpa using ht
  simp [hlt]

/-- A position of the codeword is a data position or a parity position. -/
theorem position_cases {j : Nat} (h1 : 1 ≤ j) (hj : j ≤ M N) :
    (∃ t, t < N ∧ (Q N).getD t 0 = j) ∨ ∃ i, i < K N ∧ 2 ^ i = j := by
  by_cases hP : j ∈ P N
  · exact .inr ((mem_P N j).mp hP)
  · have entry : j ∈ (Q N).map id := (List.map_id _).symm ▸ (mem_Q N j).mpr ⟨⟨h1, hj⟩, hP⟩
    rw [map_Q] at entry
    obtain ⟨t, ht, e⟩ := List.mem_map.mp entry
    exact .inl ⟨t, List.mem_range.mp ht, e⟩

end Sys2Proof.Layout

namespace Sys2Proof.Machine

open Layout

section
variable {N : Nat} {d : Bits} (hd : d.length = N)
include hd

/-- R121: a placeholder holds 0. -/
theorem bitAt_insertPlaceholders_two_pow {i : Nat} (hi : i < K N) : bitAt (insertPlaceholders N d) (2 ^ i) = false :=
  bitAt_placeLow (fun _ => two_pow_le_of_length hd) hi

/-- R121: `c[Q[t]] = d[t]`, with `t` counted from 0. -/
theorem bitAt_insertPlaceholders_getD_Q {t : Nat} (ht : t < N) :
    bitAt (insertPlaceholders N d) ((Q N).getD t 0) = d.getD t false := by
  rw [bitAt_insertPlaceholders_of_mem_Q hd (getD_Q_mem ht), getD_Q_sub_bitlen ht, bitAt_succ]

/-- R123(b): the overwrites leave it so. -/
theorem bitAt_encodeBits_getD_Q {t : Nat} (ht : t < N) : bitAt (encodeBits N d) ((Q N).getD t 0) = d.getD t false := by
  rw [bitAt_encodeBits_of_mem_Q hd (getD_Q_mem ht), getD_Q_sub_bitlen ht, bitAt_succ]

end

/-- Settles O17: after `k` insertions the list has `k` bits more, and no later one moves a placeholder. -/
theorem placeholderInsertion : Obligations.PlaceholderInsertion := fun _ d hd =>
  ⟨fun _ => two_pow_le_of_lt_K, fun k _ => (length_placeLow k d).trans (congrArg (· + k) hd),
    length_insertPlaceholders_eq_M hd, fun _ => bitAt_insertPlaceholders_two_pow hd,
    fun _ => bitAt_insertPlaceholders_getD_Q hd⟩

end Sys2Proof.Machine
end

section
/-! SUPPORT. The parity bits as sums over the data positions, and the overwrites that put them in the codeword (R122, O18). -/

namespace Sys2Proof

/-- An XOR over the entries that pass a test. -/
theorem xorAll_filterMap_ite {α : Type} (l : List α) (p f : α → Bool) :
    xorAll (l.filterMap fun a => if p a then some (f a) else none) = xorAll (l.map fun a => p a && f a) := by
  induction l with
  | nil => rfl
  | cons a l ih => cases h : p a <;> simp [h, ih]

/-- Writes at two positions can be done in either order. -/
theorem setAt_comm (L : Bits) (b b' : Bool) {p q : Nat} (hp : 1 ≤ p) (hq : 1 ≤ q) (hne : p ≠ q) :
    setAt (setAt L b p) b' q = setAt (setAt L b' q) b p := by
  rw [setAt_eq_set _ _ hq, setAt_eq_set _ _ hp, setAt_eq_set _ _ hp, setAt_eq_set _ _ hq]
  exact List.set_comm _ _ (by omega)

end Sys2Proof

namespace Sys2Proof.Machine

open Layout

variable {N : Nat} {d : Bits}

/-- The first `k` overwrites change no term of row `k` or a later one, which does not read their positions. -/
theorem rowTerms_writeLow {r c : Bits} {k i : Nat} (fits : ∀ m < k, 2 ^ m ≤ c.length) (hi : k ≤ i) :
    rowTerms N (writeLow r k c) i = rowTerms N c i := by
  refine List.map_congr_left fun j _ => ?_
  by_cases hj : ∃ m, m < k ∧ j = 2 ^ m
  · obtain ⟨m, hm, rfl⟩ := hj
    rw [bit_two_pow, decide_eq_false (by omega), Bool.false_and, Bool.false_and]
  · rw [bitAt_writeLow_of_ne fits fun m hm e => hj ⟨m, hm, e⟩]

section
variable (hd : d.length = N)
include hd

theorem two_pow_le_length_insertPlaceholders {i : Nat} (hi : i < K N) : 2 ^ i ≤ (insertPlaceholders N d).length :=
  (two_pow_lt_M hi).le.trans (length_insertPlaceholders_eq_M hd).ge

/-- R123(b): the codeword holds `r[i]` at `2^i`. -/
theorem bitAt_encodeBits_two_pow {i : Nat} (hi : i < K N) :
    bitAt (encodeBits N d) (2 ^ i) = (mulVec N (insertPlaceholders N d)).getD i false :=
  bitAt_writeLow (fun _ => two_pow_le_length_insertPlaceholders hd) hi

/-- R122: the placeholders add nothing to a row's sum, which is the XOR of the data bits that the row reads. -/
theorem xorAll_rowTerms_insertPlaceholders (i : Nat) :
    xorAll (rowTerms N (insertPlaceholders N d) i)
      = xorAll ((List.range N).map fun t => bit ((Q N).getD t 0) i && d.getD t false) := by
  have placeholders (j : Nat) : (bit j i && bitAt (insertPlaceholders N d) j)
      = (bit j i && bitAt (insertPlaceholders N d) j && !(P N).contains j) := by
    by_cases hP : j ∈ P N
    · obtain ⟨m, hm, rfl⟩ := (mem_P N j).mp hP
      rw [bitAt_insertPlaceholders_two_pow hd hm, Bool.and_false, Bool.false_and]
    · simp [hP]
  calc xorAll (rowTerms N (insertPlaceholders N d) i)
      = xorAll ((Q N).map fun j => bit j i && bitAt (insertPlaceholders N d) j) := by
        rw [Q, xorAll_map_filter, rowTerms]
        exact congrArg xorAll (List.map_congr_left fun j _ => placeholders j)
    _ = xorAll ((List.range N).map fun t => bit ((Q N).getD t 0) i && d.getD t false) := by
        rw [map_Q]
        refine congrArg xorAll (List.map_congr_left fun t ht => ?_)
        rw [bitAt_insertPlaceholders_getD_Q hd (List.mem_range.mp ht)]

theorem mulVec_insertPlaceholders_getD {i : Nat} (hi : i < K N) :
    (mulVec N (insertPlaceholders N d)).getD i false
      = xorAll ((List.range N).map fun t => bit ((Q N).getD t 0) i && d.getD t false) :=
  (mulVec_getD (length_insertPlaceholders_eq_M hd) hi).trans (xorAll_rowTerms_insertPlaceholders hd i)

/-- The data bits, each with its position. -/
theorem zip_Q_eq_map_range : (Q N).zip d = (List.range N).map fun t => ((Q N).getD t 0, d.getD t false) := by
  refine List.ext_getElem (by simp [length_Q, hd]) fun t ht _ => ?_
  simp [List.lt_length_left_of_zip ht, List.lt_length_right_of_zip ht]

/-- R122: the parity value is the XOR of the positions of the 1s of the data. -/
theorem syndromeValue_insertPlaceholders :
    syndromeValue N (insertPlaceholders N d)
      = xorNat (((Q N).zip d).filterMap fun q => if q.2 then some q.1 else none) := by
  refine Nat.eq_of_testBit_eq fun i => ?_
  have positions : (((Q N).zip d).filterMap fun q => if q.2 then some q.1 else none).map (bit · i)
      = ((Q N).zip d).filterMap fun q => if q.2 then some (bit q.1 i) else none := by
    rw [List.map_filterMap]
    exact congrArg (List.filterMap · _) (funext fun q => by cases q.2 <;> rfl)
  rw [testBit_syndromeValue (length_insertPlaceholders_eq_M hd), xorAll_rowTerms_insertPlaceholders hd,
    testBit_xorNat, positions, xorAll_filterMap_ite, zip_Q_eq_map_range hd, List.map_map]
  exact congrArg xorAll (List.map_congr_left fun t _ => Bool.and_comm _ _)

/-- R122: computing the product anew before each overwrite gives the same parity bit each time. -/
theorem foldl_setAt_mulVec {k : Nat} (hk : k ≤ K N) :
    (List.range k).foldl (fun c i => setAt c ((mulVec N c).getD i false) (2 ^ i)) (insertPlaceholders N d)
      = writeLow (mulVec N (insertPlaceholders N d)) k (insertPlaceholders N d) := by
  induction k with
  | zero => rfl
  | succ k ih =>
    have len := length_insertPlaceholders_eq_M hd
    have fits (i : Nat) (hi : i < k) : 2 ^ i ≤ (insertPlaceholders N d).length :=
      two_pow_le_length_insertPlaceholders hd (hi.trans hk)
    rw [List.range_succ, List.foldl_append, ih (Nat.le_of_succ_le hk), List.foldl_cons, List.foldl_nil, writeLow_succ,
      mulVec_getD ((length_writeLow ..).trans len) hk, rowTerms_writeLow fits le_rfl, ← mulVec_getD len hk]

end

/-- R122: the overwrites can be done in any order. -/
theorem foldl_setAt_perm (r c : Bits) {order order' : List Nat} (h : order.Perm order') :
    order.foldl (fun c i => setAt c (r.getD i false) (2 ^ i)) c
      = order'.foldl (fun c i => setAt c (r.getD i false) (2 ^ i)) c := by
  refine h.foldl_eq' (fun i _ k _ e => ?_) c
  obtain rfl | hne := eq_or_ne i k
  · rfl
  · exact setAt_comm e _ _ Nat.one_le_two_pow Nat.one_le_two_pow ((Nat.pow_right_injective le_rfl).ne hne)

/-- Settles O18: a row's sum is over the data bits alone, and it reads no parity position but its own. -/
theorem parityComputation : Obligations.ParityComputation := by
  refine fun N d hd => ⟨fun i hi => ?_, syndromeValue_insertPlaceholders hd, fun order h => ?_,
    foldl_setAt_mulVec hd le_rfl⟩
  · rw [mulVec_insertPlaceholders_getD hd hi, xorAll_filterMap_ite, zip_Q_eq_map_range hd, List.map_map]
    rfl
  · rw [foldl_setAt_perm _ _ h, encodeBits, overwriteParity]

end Sys2Proof.Machine
end

section
/-! SUPPORT. ENCODE's response field by field, its codeword as a linear function of the data word, and the cycle that accepts the
command (R120, R123, R124; O19, O20, O21, O25, O30). -/

namespace Sys2Proof

theorem getD_ofPort {w t : Nat} (v : BitVec w) (ht : t < w) : (ofPort v).getD t false = v.getLsbD (w - 1 - t) := by
  rw [← bitAt_succ, bitAt_ofPort v (Nat.le_add_left 1 t) ht, Nat.sub_sub, Nat.add_comm 1 t]

theorem ofPort_injective {w : Nat} : Function.Injective (ofPort (w := w)) :=
  Function.LeftInverse.injective fun v => toPort_ofPort v

theorem eq_replicate_of_lsbValue {r : Bits} (h : lsbValue r = 0) : r = List.replicate r.length false := by
  refine List.ext_getElem (by simp) fun i hi _ => ?_
  have entry := testBit_lsbValue r i
  rw [h, Nat.zero_testBit, List.getD_eq_getElem _ _ hi] at entry
  rw [← entry, List.getElem_replicate]

end Sys2Proof

namespace Sys2Proof.Machine

open Layout

section
variable {N : Nat}

theorem bitAt_codeBits_xor (C C' : BitVec (M N)) {j : Nat} (h1 : 1 ≤ j) (hj : j ≤ M N) :
    bitAt (codeBits (C ^^^ C')) j = (bitAt (codeBits C) j ^^ bitAt (codeBits C') j) := by
  simp only [codeBits, bitAt_ofPort _ h1 hj, BitVec.getLsbD_xor]

/-- R124: data bit `t` of the codeword is port bit `N − 1 − t` of the data word, both counted from 0. -/
theorem bitAt_code_getD_Q (D : BitVec N) {t : Nat} (ht : t < N) :
    bitAt (codeBits (encodeResponse N D).code) ((Q N).getD t 0) = D.getLsbD (N - 1 - t) := by
  rw [codeBits_encodeResponse, bitAt_encodeBits_getD_Q (length_dataBits N D) ht, dataBits, getD_ofPort D ht]

/-- R124: parity bit `i` of the codeword is the XOR of the data bits at the positions whose index has bit `i`. -/
theorem bitAt_code_two_pow (D : BitVec N) {i : Nat} (hi : i < K N) :
    bitAt (codeBits (encodeResponse N D).code) (2 ^ i)
      = xorAll ((List.range N).map fun t => bit ((Q N).getD t 0) i && D.getLsbD (N - 1 - t)) := by
  have hd := length_dataBits N D
  rw [codeBits_encodeResponse, bitAt_encodeBits_two_pow hd hi, mulVec_insertPlaceholders_getD hd hi]
  refine congrArg xorAll (List.map_congr_left fun t ht => ?_)
  rw [dataBits, getD_ofPort D (List.mem_range.mp ht)]

/-- Two codeword ports with the same bits at the data positions and at the parity positions carry the same word. -/
theorem code_ext {C C' : BitVec (M N)}
    (data : ∀ t, t < N → bitAt (codeBits C) ((Q N).getD t 0) = bitAt (codeBits C') ((Q N).getD t 0))
    (parity : ∀ i, i < K N → bitAt (codeBits C) (2 ^ i) = bitAt (codeBits C') (2 ^ i)) : C = C' := by
  refine ofPort_injective (bits_ext (by simp) fun j h1 hj => ?_)
  obtain ⟨t, ht, rfl⟩ | ⟨i, hi, rfl⟩ := position_cases h1 (hj.trans (length_ofPort C).le)
  · exact data t ht
  · exact parity i hi

/-- R123(c): decoding tells codewords of different data words apart. -/
theorem encodeResponse_code_injective : Function.Injective fun D : BitVec N => (encodeResponse N D).code := by
  intro D D' h
  have data := congrArg (fun C => (decodeResponse N C).data) h
  simpa [decodeResponse_encodeResponse] using data

/-- R123(d): at each position the codeword holds a sum of data bits. -/
theorem encodeResponse_code_xor (D D' : BitVec N) :
    (encodeResponse N (D ^^^ D')).code = (encodeResponse N D).code ^^^ (encodeResponse N D').code := by
  refine code_ext (fun t ht => ?_) fun i hi => ?_
  · obtain ⟨⟨h1, hM⟩, -⟩ := (mem_Q N _).mp (getD_Q_mem ht)
    simp only [bitAt_codeBits_xor _ _ h1 hM, bitAt_code_getD_Q _ ht, BitVec.getLsbD_xor]
  · simp only [bitAt_codeBits_xor _ _ Nat.one_le_two_pow (two_pow_lt_M hi).le, bitAt_code_two_pow _ hi,
      BitVec.getLsbD_xor, Bool.and_xor_distrib_left, xorAll_map_xor]

theorem encodeResponse_code_zero : (encodeResponse N 0).code = 0 := by
  have double := encodeResponse_code_xor (N := N) 0 0
  rwa [BitVec.xor_self, BitVec.xor_self] at double

/-- R123(a). -/
theorem mulVec_encodeResponse (D : BitVec N) :
    mulVec N (codeBits (encodeResponse N D).code) = List.replicate (K N) false := by
  have zero : lsbValue (mulVec N (codeBits (encodeResponse N D).code)) = 0 := by
    rw [codeBits_encodeResponse]
    exact syndromeValue_encodeBits (length_dataBits N D)
  simpa using eq_replicate_of_lsbValue zero

end

/-- Settles O20: the codeword has syndrome value 0, DECODE gives its data word back, and each of its bits is a sum of data
bits. -/
theorem encodeCodewordProperties : Obligations.EncodeCodewordProperties := by
  refine fun N => ⟨fun D => ?_, fun _ _ h => encodeResponse_code_injective h, encodeResponse_code_xor,
    encodeResponse_code_zero⟩
  have hd := length_dataBits N D
  refine ⟨mulVec_encodeResponse D, ?_, by rw [decodeResponse_encodeResponse], by rw [decodeResponse_encodeResponse], ?_⟩
  · rw [codeBits_encodeResponse, ← syndromeValue_eq_xorNat (length_encodeBits hd), syndromeValue_encodeBits hd]
  · rw [codeBits_encodeResponse]
    exact ⟨fun t => bitAt_encodeBits_getD_Q hd, fun i => bitAt_encodeBits_two_pow hd, stripParity_encodeBits hd⟩

/-- Settles O25: the codeword's syndrome value is 0, so DECODE passes it through and strips it. -/
theorem encodeThenDecodeRoundTrip : Obligations.EncodeThenDecodeRoundTrip := decodeResponse_encodeResponse

/-- Settles O19: the data word of the command is `d`'s low `N` bits, and port bit `N − 1 − t` is a bit of `d`. -/
theorem encodeResponseFields : Obligations.EncodeResponseFields := by
  intro N x d
  have operand (t : Nat) (ht : t < N) : (BitVec.ofNat N d).getLsbD (N - 1 - t) = d.testBit (N - 1 - t) := by
    rw [BitVec.getLsbD_ofNat, decide_eq_true (by omega), Bool.true_and]
  refine ⟨rfl, rfl, rfl, rfl, fun t ht => ?_, fun i hi => ?_⟩
  · rw [respond_encode, bitAt_code_getD_Q _ ht, operand t ht]
  · rw [respond_encode, bitAt_code_two_pow _ hi]
    refine congrArg xorAll (List.map_congr_left fun t ht => ?_)
    rw [operand t (List.mem_range.mp ht)]

/-- Settles O21: R125's cases, evaluated. -/
theorem encodeCornerCases : Obligations.EncodeCornerCases :=
  ⟨rfl, rfl, rfl, rfl, rfl, rfl, rfl, rfl⟩

/-- Settles O30: the command's response enters a cycle with `rst` = 0. -/
theorem encodeCompletes : Obligations.EncodeCompletes := fun x d p b =>
  ⟨_, exec_eq (.encode x d) ⟨p, b⟩, Block.clock_accepts _ b⟩

end Sys2Proof.Machine
end

section
/-! SUPPORT. What stripping keeps of any word (R143): the bits at the data positions, whatever the parity positions hold (O24,
O28). -/

namespace Sys2Proof

theorem bitAt_removeAt_below (L : Bits) {p q : Nat} (hqp : q < p) : bitAt (removeAt L p) q = bitAt L q := by
  rw [removeAt_eq_eraseIdx L (Nat.one_le_of_lt hqp)]
  cases q with
  | zero => rfl
  | succ q =>
    rw [bitAt_succ, bitAt_succ, List.getD_eq_getElem?_getD, List.getD_eq_getElem?_getD,
      List.getElem?_eraseIdx_of_lt (Nat.lt_sub_of_add_lt hqp)]

end Sys2Proof

namespace Sys2Proof.Machine

open Layout

/-- R143: removals at higher parity positions, in any order, leave the bit at position `2^i` in its place. -/
theorem bitAt_foldl_removeAt {i : Nat} {ks : List Nat} (above : ∀ k ∈ ks, i < k) (c : Bits) :
    bitAt (ks.foldl (fun e k => removeAt e (2 ^ k)) c) (2 ^ i) = bitAt c (2 ^ i) := by
  induction ks generalizing c with
  | nil => rfl
  | cons k ks ih =>
    rw [List.foldl_cons, ih (fun m hm => above m (List.mem_cons_of_mem k hm)),
      bitAt_removeAt_below c (Nat.pow_lt_pow_right (by decide) (above k List.mem_cons_self))]

section
variable {N : Nat} {c : Bits}

theorem length_map_Q (f : Nat → Bool) : ((Q N).map f).length = N := by rw [List.length_map, length_Q]

/-- Any word of `M` bits is its data bits, with placeholders inserted and these overwritten by its parity bits. -/
theorem eq_overwriteParity_insertPlaceholders (hc : c.length = M N) :
    c = overwriteParity N ((List.range (K N)).map fun i => bitAt c (2 ^ i)) (insertPlaceholders N ((Q N).map (bitAt c))) := by
  have hd := length_map_Q (N := N) (bitAt c)
  have fits (i : Nat) (hi : i < K N) := two_pow_le_length_insertPlaceholders hd hi
  refine bits_ext (by rw [length_overwriteParity, length_insertPlaceholders_eq_M hd, hc]) fun j h1 hj => ?_
  rw [overwriteParity_eq]
  obtain ⟨t, ht, rfl⟩ | ⟨i, hi, rfl⟩ := position_cases h1 (hj.trans hc.le)
  · obtain ⟨-, -, hne⟩ := mem_Q_iff_ne_two_pow.mp (getD_Q_mem ht)
    rw [bitAt_writeLow_of_ne fits fun i _ => hne i, bitAt_insertPlaceholders_getD_Q hd ht, map_Q]
    simp [ht]
  · rw [bitAt_writeLow fits hi]
    simp [hi]

/-- R143: the removals undo the insertions, and with them the overwrites. -/
theorem stripParity_eq_map_Q (hc : c.length = M N) : stripParity N c = (Q N).map (bitAt c) := by
  conv_lhs => rw [eq_overwriteParity_insertPlaceholders hc]
  rw [overwriteParity_eq, stripParity_eq, stripLow_writeLow]
  exact stripLow_placeLow fun i => two_pow_le_of_length (length_map_Q _)

/-- R147: stripping discards a parity position, inverted or not. -/
theorem stripParity_flipAt_two_pow (hc : c.length = M N) {i : Nat} (hi : i < K N) :
    stripParity N (flipAt c (2 ^ i)) = stripParity N c := by
  rw [stripParity_eq_map_Q hc, stripParity_eq_map_Q ((length_flipAt c _).trans hc)]
  refine List.map_congr_left fun j hj => ?_
  obtain ⟨-, -, hne⟩ := mem_Q_iff_ne_two_pow.mp hj
  rw [bitAt_flipAt c j Nat.one_le_two_pow ((two_pow_lt_M hi).le.trans hc.ge), if_neg (hne i)]

end

/-- Settles O24: a removal moves no bit below it, and any word is its data bits with parity bits inserted. -/
theorem strippingKeepsDataPositions : Obligations.StrippingKeepsDataPositions := fun _ c hc =>
  ⟨fun _ _ => bitAt_foldl_removeAt (fun _ hk => (List.mem_range'_1.mp (List.mem_reverse.mp hk)).1) c,
    stripParity_eq_map_Q hc⟩

/-- Settles O26: the syndrome value is the inverted position, which is corrected where it is below `M`. -/
theorem singleErrorCorrection : Obligations.SingleErrorCorrection := by
  refine fun N D p hN h1 hp => ⟨fun hlt => ?_, ?_⟩
  · exact decodeResponse_invert_of_lt N D h1 (Nat.lt_of_le_pred (h1.trans hp) hlt)
  · rintro rfl
    exact decodeResponse_invert_M N D hN

/-- Settles O28: a parity position lies below `M`, and stripping does not read it. -/
theorem parityBitErrors : Obligations.ParityBitErrors := by
  refine fun N D i hi => ⟨decodeResponse_invert_of_lt N D Nat.one_le_two_pow (two_pow_lt_M hi), ?_⟩
  rw [codeBits_invert, codeBits_encodeResponse, stripParity_flipAt_two_pow (length_encodeBits (length_dataBits N D)) hi,
    toPort_stripParity_encodeBits]

end Sys2Proof.Machine
end

section
/-! SUPPORT. DECODE's response to any word, field by field (R141, R142, R144; O22, O23), its corner cases (O29), and the cycle
that accepts the command (O31). -/

namespace Sys2Proof.Machine

open Layout

section
variable {N : Nat} (C : BitVec (M N))

/-- R141. -/
theorem syndromeValue_codeBits : syndromeValue N (codeBits C) = xorNat (onePositions (codeBits C)) :=
  syndromeValue_eq_xorNat (length_codeBits N C)

theorem syndromeValue_lt (c : Bits) : syndromeValue N c < 2 ^ K N := length_mulVec N c ▸ lsbValue_lt (mulVec N c)

theorem syndrome_decodeResponse : (decodeResponse N C).syndrome = BitVec.ofNat (K N) (syndromeValue N (codeBits C)) := rfl

theorem codeBits_decodeResponse : codeBits (decodeResponse N C).code = correctBits N (codeBits C) :=
  codeBits_toPort N ((length_correctBits N _).trans (length_codeBits N C))

/-- R144: the data are the bits of the response's own codeword at the data positions. -/
theorem dataBits_decodeResponse :
    dataBits (decodeResponse N C).data = (Q N).map (bitAt (codeBits (decodeResponse N C).code)) := by
  have strip := stripParity_eq_map_Q (length_codeBits N (decodeResponse N C).code)
  rw [codeBits_decodeResponse] at strip ⊢
  rw [← strip]
  exact ofPort_toPort (by rw [strip, length_map_Q])

end

/-- Settles O22: the port has a bit for each of the product's `K` entries. -/
theorem syndromeIsXorOfPositions : Obligations.SyndromeIsXorOfPositions := fun N C =>
  ⟨syndromeValue_codeBits C, Nat.le_sub_one_of_lt (syndromeValue_lt _), toNat_toLsbPort (length_mulVec N _),
    fun i _ => getLsbD_toLsbPort (length_mulVec N _) i⟩

/-- Settles O23: the three cases of the syndrome value, which for `N ≥ 1` exclude each other. -/
theorem correctionPolicy : Obligations.CorrectionPolicy := by
  refine ⟨fun N C hN => ?_, fun N _ => M_lt_two_pow_K N⟩
  rw [← syndromeValue_codeBits C]
  refine ⟨rfl, syndrome_decodeResponse C, fun t ht => ?_, fun clean => ?_, fun pos below => ?_, fun large => ?_⟩
  · rw [dataBits_decodeResponse, map_Q]
    simp [ht]
  · rw [decodeResponse_of_clean N clean]
    exact ⟨rfl, rfl⟩
  · rw [decodeResponse_of_corrected rfl pos.ne' below]
    refine ⟨rfl, fun j _ _ => ?_⟩
    rw [codeBits_toPort N (by simp [length_codeBits]), bitAt_flipAt _ j pos (below.le.trans (length_codeBits N C).ge)]
    split
    · next h => rw [h]
    · rfl
  · rw [decodeResponse_of_uncorrectable rfl (Nat.pos_iff_ne_zero.mp ((M_pos hN).trans large)) large]
    exact ⟨rfl, rfl⟩

/-- Settles O29: R150's cases, evaluated. -/
theorem decodeCornerCases : Obligations.DecodeCornerCases := by
  have corrected (s : Nat) (h1 : 1 ≤ s) (h6 : s ≤ 6) : classify 4 s = .corrected := by
    rw [classify, if_neg (by omega), if_pos (show s < M 4 from Nat.lt_succ_of_le h6)]
  exact ⟨rfl, rfl, rfl, rfl, rfl, rfl, rfl, rfl, rfl, rfl, rfl, rfl, rfl, by decide, corrected, rfl⟩

/-- Settles O31: the command's response enters a cycle with `rst` = 0, whatever its status. -/
theorem decodeCompletes : Obligations.DecodeCompletes := fun c p b =>
  ⟨_, exec_eq (.decode c) ⟨p, b⟩, Block.clock_accepts _ b⟩

end Sys2Proof.Machine
end

section
/-! SUPPORT. Several positions of a codeword inverted (R146, O27): what each position then holds, the syndrome value, and the
data that a correction at the wrong position gives. -/

namespace Sys2Proof

@[simp] theorem length_foldl_flipAt (E : List Nat) (c : Bits) : (E.foldl flipAt c).length = c.length := by
  induction E generalizing c with
  | nil => rfl
  | cons p E ih => rw [List.foldl_cons, ih, length_flipAt]

theorem bitAt_foldl_flipAt_of_not_mem {E : List Nat} {c : Bits} {j : Nat} (range : ∀ p ∈ E, 1 ≤ p ∧ p ≤ c.length)
    (hj : j ∉ E) : bitAt (E.foldl flipAt c) j = bitAt c j := by
  induction E generalizing c with
  | nil => rfl
  | cons p E ih =>
    obtain ⟨⟨h1, hp⟩, rest⟩ := List.forall_mem_cons.mp range
    rw [List.foldl_cons, ih (by simpa using rest) fun h => hj (List.mem_cons_of_mem p h), bitAt_flipAt c j h1 hp,
      if_neg (List.ne_of_not_mem_cons hj)]

/-- Each position of a set is inverted once. -/
theorem bitAt_foldl_flipAt_of_mem {E : List Nat} {c : Bits} {j : Nat} (distinct : E.Nodup)
    (range : ∀ p ∈ E, 1 ≤ p ∧ p ≤ c.length) (hj : j ∈ E) : bitAt (E.foldl flipAt c) j = !bitAt c j := by
  induction E generalizing c with
  | nil => exact absurd hj List.not_mem_nil
  | cons p E ih =>
    obtain ⟨⟨h1, hp⟩, rest⟩ := List.forall_mem_cons.mp range
    obtain ⟨fresh, distinct⟩ := List.nodup_cons.mp distinct
    rw [← length_flipAt c p] at rest
    rw [List.foldl_cons]
    obtain rfl | hj := List.mem_cons.mp hj
    · rw [bitAt_foldl_flipAt_of_not_mem rest fresh, bitAt_flipAt c j h1 hp, if_pos rfl]
    · rw [ih distinct rest hj, bitAt_flipAt c j h1 hp, if_neg (ne_of_mem_of_not_mem hj fresh)]

/-- R146: the XOR of two different positions is not 0 and is neither of them. -/
theorem xor_ne_positions {p q : Nat} (h1p : 1 ≤ p) (h1q : 1 ≤ q) (hne : p ≠ q) :
    p ^^^ q ≠ 0 ∧ p ^^^ q ≠ p ∧ p ^^^ q ≠ q :=
  ⟨Nat.xor_ne_zero_iff.mpr hne, by simpa using Nat.ne_of_gt h1q, by simpa using Nat.ne_of_gt h1p⟩

/-- The XOR of two different powers of two is no power of two. -/
theorem two_pow_xor_two_pow_ne {a b : Nat} (hne : a ≠ b) (k : Nat) : 2 ^ a ^^^ 2 ^ b ≠ 2 ^ k := by
  intro h
  have bits (i : Nat) : (decide (a = i) ^^ decide (b = i)) = decide (k = i) := by
    rw [← Nat.testBit_two_pow, ← Nat.testBit_two_pow, ← Nat.testBit_two_pow, ← h, Nat.testBit_xor]
  have hka : k = a := by simpa [hne.symm] using bits a
  have hkb : k = b := by simpa [hne] using bits b
  exact hne (hka.symm.trans hkb)

end Sys2Proof

namespace Sys2Proof.Machine

open Layout

section
variable {N : Nat} {c : Bits} {E : List Nat} {p q : Nat}

/-- R146: inverting a list of positions adds their XOR to the syndrome value. -/
theorem syndromeValue_foldl_flipAt (hc : c.length = M N) (range : ∀ p ∈ E, 1 ≤ p ∧ p ≤ M N) :
    syndromeValue N (E.foldl flipAt c) = syndromeValue N c ^^^ xorNat E := by
  induction E generalizing c with
  | nil => exact (Nat.xor_zero _).symm
  | cons p E ih =>
    obtain ⟨⟨h1, hp⟩, rest⟩ := List.forall_mem_cons.mp range
    rw [List.foldl_cons, ih ((length_flipAt c p).trans hc) rest, syndromeValue_flipAt hc h1 hp, xorNat_cons, Nat.xor_assoc]

theorem codeBits_invert_list (C : BitVec (M N)) (E : List Nat) : codeBits (invert N C E) = E.foldl flipAt (codeBits C) :=
  codeBits_toPort N (by rw [length_foldl_flipAt, length_codeBits])

/-- Of two positions and their XOR, one is no power of two. -/
theorem exists_mem_Q_of_xor (hne : p ≠ q) (range : ∀ j ∈ [p, q, p ^^^ q], 1 ≤ j ∧ j ≤ M N) :
    ∃ j ∈ [p, q, p ^^^ q], j ∈ Q N := by
  by_contra allParity
  have parity (j : Nat) (hj : j ∈ [p, q, p ^^^ q]) : ∃ t, j = 2 ^ t := by
    obtain ⟨h1, hM⟩ := range j hj
    by_contra notPow
    exact allParity ⟨j, hj, mem_Q_iff_ne_two_pow.mpr ⟨h1, hM, not_exists.mp notPow⟩⟩
  obtain ⟨a, rfl⟩ := parity p (by simp)
  obtain ⟨b, rfl⟩ := parity q (by simp)
  obtain ⟨k, hk⟩ := parity (2 ^ a ^^^ 2 ^ b) (by simp)
  exact two_pow_xor_two_pow_ne (fun h => hne (congrArg (2 ^ ·) h)) k hk

section
variable (D : BitVec N)

/-- The codeword itself adds nothing. -/
theorem syndromeValue_invert_list (range : ∀ p ∈ E, 1 ≤ p ∧ p ≤ M N) :
    syndromeValue N (codeBits (invert N (encodeResponse N D).code E)) = xorNat E := by
  have hd := length_dataBits N D
  rw [codeBits_invert_list, codeBits_encodeResponse, syndromeValue_foldl_flipAt (length_encodeBits hd) range,
    syndromeValue_encodeBits hd, Nat.zero_xor]

/-- A word that differs from the codeword at a data position strips to other data. -/
theorem toPort_stripParity_ne (hc : c.length = M N) {j : Nat} (hj : j ∈ Q N)
    (differ : bitAt c j ≠ bitAt (codeBits (encodeResponse N D).code) j) : toPort N (stripParity N c) ≠ D := by
  intro same
  have strips : stripParity N c = stripParity N (codeBits (encodeResponse N D).code) := by
    rw [codeBits_encodeResponse, stripParity_encodeBits (length_dataBits N D), dataBits, ← same,
      ofPort_toPort (by rw [stripParity_eq_map_Q hc, length_map_Q])]
  rw [stripParity_eq_map_Q hc, stripParity_eq_map_Q (length_codeBits N _)] at strips
  exact differ (List.map_inj_left.mp strips j hj)

variable (h1p : 1 ≤ p) (hp : p ≤ M N) (h1q : 1 ≤ q) (hq : q ≤ M N)
include h1p hp h1q hq

theorem syndromeValue_invert_pair :
    syndromeValue N (codeBits (invert N (encodeResponse N D).code [p, q])) = p ^^^ q := by
  rw [syndromeValue_invert_list D (by simp [*]), xorNat_cons, xorNat_cons, xorNat_nil, Nat.xor_zero]

variable (hne : p ≠ q)
include hne

/-- R146: three inverted positions whose XOR is 0 leave wrong data. -/
theorem toPort_stripParity_invert_xor_ne (hx : p ^^^ q ≤ M N) :
    toPort N (stripParity N (codeBits (invert N (encodeResponse N D).code [p, q, p ^^^ q]))) ≠ D := by
  obtain ⟨hx0, hxp, hxq⟩ := xor_ne_positions h1p h1q hne
  have range : ∀ j ∈ [p, q, p ^^^ q], 1 ≤ j ∧ j ≤ M N := by
    simp only [List.forall_mem_cons]
    exact ⟨⟨h1p, hp⟩, ⟨h1q, hq⟩, ⟨Nat.pos_of_ne_zero hx0, hx⟩, by simp⟩
  have distinct : [p, q, p ^^^ q].Nodup := by simp [hne, hxp.symm, hxq.symm]
  obtain ⟨j, hj, hQ⟩ := exists_mem_Q_of_xor hne range
  refine toPort_stripParity_ne D (length_codeBits N _) hQ ?_
  rw [codeBits_invert_list, bitAt_foldl_flipAt_of_mem distinct (by rwa [length_codeBits]) hj]
  exact Bool.not_ne_self _

/-- R146: a double error whose XOR is below `M` gets a third position inverted. -/
theorem decodeResponse_invert_pair_of_lt (hx : p ^^^ q < M N) :
    decodeResponse N (invert N (encodeResponse N D).code [p, q])
      = { op := true, code := invert N (encodeResponse N D).code [p, q, p ^^^ q]
          data := toPort N (stripParity N (codeBits (invert N (encodeResponse N D).code [p, q, p ^^^ q])))
          status := Status.corrected.code, syndrome := BitVec.ofNat (K N) (p ^^^ q) } := by
  have third : flipAt (codeBits (invert N (encodeResponse N D).code [p, q])) (p ^^^ q)
      = codeBits (invert N (encodeResponse N D).code [p, q, p ^^^ q]) := by
    rw [codeBits_invert_list, codeBits_invert_list]
    rfl
  rw [decodeResponse_of_corrected (syndromeValue_invert_pair D h1p hp h1q hq) (Nat.xor_ne_zero_iff.mpr hne) hx, third,
    codeBits, toPort_ofPort]

end

end

/-- Settles O27: the syndrome value is the XOR of the positions; positions 1, 2 and 3 are two positions and their XOR. -/
theorem multipleErrors : Obligations.MultipleErrors := by
  refine ⟨fun N D E _ range => ?_, fun N D p q h1p hp h1q hq hne => ?_, fun N D hN => ?_, rfl⟩
  · have value := syndromeValue_invert_list D range
    exact ⟨by rw [syndrome_decodeResponse, value], value⟩
  · obtain ⟨hx0, hxp, hxq⟩ := xor_ne_positions h1p h1q hne
    have syndrome := syndromeValue_invert_pair D h1p hp h1q hq
    refine ⟨hx0, hxp, hxq, fun clean => hx0 ?_, fun below => ?_, fun large => ?_⟩
    · exact syndrome.symm.trans ((classify_code_eq_clean N _).mp clean)
    · rw [decodeResponse_invert_pair_of_lt D h1p hp h1q hq hne below]
      exact ⟨rfl, rfl, toPort_stripParity_invert_xor_ne D h1p hp h1q hq hne below.le⟩
    · rw [decodeResponse_of_uncorrectable syndrome hx0 large]
  · have hM : 3 ≤ M N := two_pow_lt_M (i := 1) (lt_K_iff.mpr (by omega))
    have range : ∀ p ∈ [1, 2, 3], 1 ≤ p ∧ p ≤ M N := by simp; omega
    rw [decodeResponse_of_clean N (syndromeValue_invert_list D range)]
    exact ⟨rfl, toPort_stripParity_invert_xor_ne D (p := 1) (q := 2) le_rfl (by omega) (by decide) (by omega) (by decide) hM⟩

end Sys2Proof.Machine
end

section
/-! 60_exceptions.md: no command and no input stops the block. -/

namespace Sys2Proof.Machine

/-- Settles O35: the next state is the same instance with the block `nextBlock b`, whichever of reset, acceptance and idling
the inputs select. -/
theorem everyStepAnswersNext : Obligations.EveryStepAnswersNext :=
  fun p b => ⟨nextBlock b, step_eq p b⟩

end Sys2Proof.Machine
end

section
/-! SUPPORT. The cycle in which `rst` = 1 or no command is presented, and executions that begin with a reset (R201 to R204,
R206; O33, O34, O36, O38, O40). -/

namespace Sys2Proof.Machine

/-- R203: what the port shows in each cycle of an execution from an empty pipeline is what is due. -/
theorem Execution.response_out {p : Params} {f : Nat → Block p.N} (hf : Execution p f)
    (hlen : (f 0).pipe.length = p.latency) (hdrained : (f 0).Drained) (t : Nat) :
    (f (t + 1)).out.response = responseDue p.latency (f 0).stimulus t := by
  rw [← hlen, ← response_out_runFrom hdrained, ← hf.eq_runFrom]

/-- Settles O38, by the simulation `inFlight_runFrom`: stage `s` holds what an instance of latency `s` is to present. -/
theorem responseTiming : Obligations.ResponseTiming := by
  rintro p f _ hf hlen hdrained rfl t
  exact hf.response_out hlen hdrained t

theorem Slot.response_eq_none_iff {N : Nat} {x : Slot N} : x.response = none ↔ x.valid = false := by
  simp [Slot.response]

section
variable {N : Nat} {b : Block N} {i : Inputs N} {rest : List (Inputs N)}

theorem Block.inputs_of_stimulus (h : b.stimulus = i :: rest) : b.inputs = i := by
  rw [Block.inputs, h, List.headD_cons]

/-- R201. -/
theorem nextBlock_of_rst (h : b.stimulus = i :: rest) (hrst : i.rst = true) :
    nextBlock b = Block.resetCycle { b with stimulus := rest } := by
  rw [nextBlock, Block.inputs_of_stimulus h, if_pos hrst, h, List.tail_cons]

theorem nextBlock_of_accepts (h : b.stimulus = i :: rest) (hrst : i.rst = false) (hcmd : i.cmdValid = true) :
    nextBlock b = Block.clock { valid := true, rsp := F N i.cmdOp i.cmdWord } { b with stimulus := rest } := by
  rw [nextBlock, Block.inputs_of_stimulus h, if_neg (by simp [hrst]), if_pos hcmd, h, List.tail_cons]

theorem nextBlock_of_idle (h : b.stimulus = i :: rest) (hrst : i.rst = false) (hcmd : i.cmdValid = false) :
    nextBlock b = Block.clock (Slot.bubble N b.cycleNo 1) { b with stimulus := rest } := by
  rw [nextBlock, Block.inputs_of_stimulus h, if_neg (by simp [hrst]), if_neg (by simp [hcmd]), h, List.tail_cons]

/-- R202: of the inputs of a cycle that accepts nothing, only `rst` and `cmd_valid` matter. -/
theorem nextBlock_ignores_command (h : b.stimulus = i :: rest) (hno : i.rst = true ∨ i.cmdValid = false) {j : Inputs N}
    (sameRst : j.rst = i.rst) (sameValid : j.cmdValid = i.cmdValid) :
    nextBlock { b with stimulus := j :: rest } = nextBlock b := by
  cases hrst : i.rst with
  | true => rw [nextBlock_of_rst h hrst, nextBlock_of_rst rfl (sameRst.trans hrst)]
  | false =>
    have hcmd : i.cmdValid = false := hno.resolve_left (by simp [hrst])
    rw [nextBlock_of_idle h hrst hcmd, nextBlock_of_idle rfl (sameRst.trans hrst) (sameValid.trans hcmd)]

theorem Inputs.answer_of_not_accepted (hno : i.rst = true ∨ i.cmdValid = false) : i.answer = none :=
  hno.elim Inputs.answer_of_rst Inputs.answer_of_cmdValid

/-- With no stages, a cycle that accepts nothing presents nothing. -/
theorem out_nextBlock_of_no_answer (hno : b.inputs.answer = none) (hpipe : b.pipe = []) :
    (nextBlock b).out.valid = false := by
  rw [← Slot.response_eq_none_iff, response_out_nextBlock, hno, Block.inFlight, hpipe]
  rfl

/-- After a cycle that accepts nothing, stage 1 is empty. -/
theorem head_nextBlock_of_no_answer (hno : b.inputs.answer = none) {x : Slot N}
    (hx : (nextBlock b).pipe.head? = some x) : x.valid = false := by
  have hhead : (nextBlock b).inFlight.head? = some x.response := by rw [Block.inFlight, List.head?_map, hx]; rfl
  rw [inFlight_nextBlock, hno] at hhead
  rw [← Slot.response_eq_none_iff]
  split at hhead
  · exact List.eq_of_mem_replicate (List.mem_of_head? hhead)
  · rw [List.head?_dropLast, Option.ite_none_right_eq_some] at hhead
    obtain ⟨-, hstage⟩ := hhead
    exact (Option.some.inj hstage).symm

/-- R206: each of the three cycles writes the port anew, and none reads it. -/
theorem nextBlock_ignores_out (o : Slot N) : nextBlock { b with out := o } = nextBlock b := rfl

end

/-- Settles O33: a cycle that accepts nothing has no answer to enter or present; one that accepts enters `F` of its command. -/
theorem acceptedIffValidAndNotReset : Obligations.AcceptedIffValidAndNotReset := by
  intro p b i rest h
  refine ⟨fun hno => ⟨fun op word => ?_, nextBlock b, step_eq p b, ?_⟩, fun hrst hcmd => ⟨nextBlock b, step_eq p b, ?_⟩⟩
  · rw [step_eq, step_eq, nextBlock_ignores_command (j := { i with cmdOp := op, cmdWord := word }) h hno rfl rfl]
  · have noAnswer : b.inputs.answer = none := by
      rw [Block.inputs_of_stimulus h, Inputs.answer_of_not_accepted hno]
    exact ⟨out_nextBlock_of_no_answer noAnswer, fun _ => head_nextBlock_of_no_answer noAnswer⟩
  · rw [nextBlock_of_accepts h hrst hcmd]
    exact Block.clock_accepts _ _

/-- Settles O34: the step is `Block.resetCycle`, which leaves bubbles and presents the last stage. -/
theorem resetCycleClearsPipeline : Obligations.ResetCycleClearsPipeline := by
  intro p b i rest h hrst
  refine ⟨_, step_eq p b, ?_⟩
  rw [nextBlock_of_rst h hrst]
  refine ⟨Block.resetCycle_drained _, Block.length_resetCycle _, rfl, fun hpipe => ?_, fun x hx => ?_⟩
  · simp [hpipe]
  · simp [List.getLastD_eq_getLast?, hx]

/-- Settles O36, by `nextBlock_ignores_out`. -/
theorem outputsAreNotHeld : Obligations.OutputsAreNotHeld := by
  intro p b o
  rw [step_eq, step_eq, nextBlock_ignores_out]

/-- An execution seen from its second cycle on is an execution. -/
theorem Execution.tail {p : Params} {f : Nat → Block p.N} (hf : Execution p f) : Execution p fun t => f (t + 1) :=
  fun t => hf (t + 1)

/-- Settles O40: the reset cycle empties the pipeline, whatever it held, so O38's description holds from the next cycle on. -/
theorem resetAfterPowerUp : Obligations.ResetAfterPowerUp := by
  intro p f i ins hf hlen hstim hrst t
  have hreset : f 1 = Block.resetCycle { f 0 with stimulus := ins } :=
    (step_next (hf 0)).trans (nextBlock_of_rst hstim hrst)
  have hlen' : (f 1).pipe.length = p.latency := by rw [hreset, Block.length_resetCycle, hlen]
  have hdrained : (f 1).Drained := hreset ▸ Block.resetCycle_drained _
  have hstim' : (f 1).stimulus = ins := by rw [hreset, Block.resetCycle_stimulus]
  rw [← hstim']
  exact hf.tail.response_out hlen' hdrained t

end Sys2Proof.Machine
end
